-- ==== Sys2Proof/Word.lean ====
section
/-! DEFINITION. The value types of the engine: FixedWidthInt, machine word, byte, register index. -/

namespace Sys2Proof

/-- A FixedWidthInt: an unsigned 512-bit integer (rules R8 to R10, R15). -/
abbrev Word := BitVec 512

/-- A machine word of a FixedWidthInt, 64 bits (rule R9); also one word of the random-word port (rule R87). -/
abbrev Limb := BitVec 64

/-- One byte of OPMEM (rule R71). -/
abbrev Byte := BitVec 8

/-- The index of an operand register, 0 to 7 (rules R11, R31). -/
abbrev RegIdx := Fin 8

end Sys2Proof
end

