-- ==== Sys2Proof/Syntax.lean ====
section
/-! DEFINITION. The ten commands (rules R104, R113), one constructor per row of spec/opcode_table.json. -/

namespace Sys2Proof

/-- A command with its operand registers, in the assembler's order rd, ra, rb, rm (rule R113). An index is 0 to 7 by its
type (rule R31), so every term is a legal command. -/
inductive Instr where
  /-- `ZERO rd`, rule R130. -/
  | zero (rd : RegIdx)
  /-- `COPY rd, ra`, rule R131. -/
  | copy (rd ra : RegIdx)
  /-- `CMP ra, rb`, rule R132. -/
  | cmp (ra rb : RegIdx)
  /-- `ISEVEN ra`, rule R134. -/
  | iseven (ra : RegIdx)
  /-- `SUB rd, ra, rb`, rule R135. -/
  | sub (rd ra rb : RegIdx)
  /-- `SHR1 rd, ra`, rule R139. -/
  | shr1 (rd ra : RegIdx)
  /-- `RANDC rd`, rule R160. -/
  | randc (rd : RegIdx)
  /-- `MULMOD rd, ra, rb, rm`, rule R170. -/
  | mulmod (rd ra rb rm : RegIdx)
  /-- `POWMOD rd, ra, rb, rm`, rule R185. -/
  | powmod (rd ra rb rm : RegIdx)
  /-- `MRTEST ra`, rule R195. -/
  | mrtest (ra : RegIdx)
  deriving DecidableEq, Repr

end Sys2Proof
end

