-- ==== Sys2Proof/WellFormed.lean ====
section
/-! DEFINITION. When a command word is well formed: rules R101, R102, R105, R106 read field by field, without the match and
mask columns that the decoder uses. A term of `Instr` is well formed by its type. -/

namespace Sys2Proof

/-- Which register fields a command uses (rule R102). -/
structure Format where
  usesD : Bool
  usesA : Bool
  usesB : Bool
  usesM : Bool
  deriving DecidableEq, Repr

/-- The six formats of rule R102. -/
def formatD : Format := ⟨true, false, false, false⟩
def formatDA : Format := ⟨true, true, false, false⟩
def formatAB : Format := ⟨false, true, true, false⟩
def formatA : Format := ⟨false, true, false, false⟩
def formatDAB : Format := ⟨true, true, true, false⟩
def formatDABM : Format := ⟨true, true, true, true⟩

/-- The format of an opcode; none where the opcode is unassigned (rules R102, R104, R106). -/
def formatOfOpcode (op : BitVec 8) : Option Format :=
  match op.toNat with
  | 0x01 => some formatD
  | 0x02 => some formatDA
  | 0x03 => some formatAB
  | 0x04 => some formatA
  | 0x05 => some formatDAB
  | 0x06 => some formatDA
  | 0x07 => some formatD
  | 0x08 => some formatDABM
  | 0x09 => some formatDABM
  | 0x0A => some formatA
  | _ => none

/-- A 4-bit register field: 0 to 7 where the format uses it, 0 where it does not (rules R101, R102, R105). -/
def registerFieldOk (used : Bool) (field : BitVec 4) : Bool :=
  if used then decide (field.toNat < 8) else decide (field = 0)

/-- A command word is well formed: assigned opcode, legal register fields, `z` = 0 (rules R105, R106). -/
def wellFormedWord (v : BitVec 32) : Bool :=
  match formatOfOpcode (v.extractLsb' 24 8) with
  | none => false
  | some f =>
    registerFieldOk f.usesD (v.extractLsb' 20 4) && registerFieldOk f.usesA (v.extractLsb' 16 4) &&
    registerFieldOk f.usesB (v.extractLsb' 12 4) && registerFieldOk f.usesM (v.extractLsb' 8 4) &&
    decide (v.extractLsb' 0 8 = 0)

end Sys2Proof
end

