-- ==== Sys2Proof/Decode.lean ====
section
/-! DEFINITION. Decoding of command words, total on all 2^32 of them (rule R112), by the opcode map of rule R104, and the
encoder (rule R101). A command word is the data of a CsrWrite and is transferred as a number (rules R80, R93, R100): it has
no byte order. -/

namespace Sys2Proof

/-- Why a word is illegal: the three ways of rule R106. The engine records no reason (rule R234): the names are the
decoder's only. -/
inductive Illegal where
  /-- `op` is 0x00 or in 0x0B to 0xFF. -/
  | unassignedOpcode
  /-- A register field the format uses is 8 to 15. -/
  | registerOutOfRange
  /-- A bit that rule R105 requires to be 0 is 1. -/
  | reservedNotZero
  deriving DecidableEq, Repr

/-- The register indices a word names, at their positions (rule R112). -/
def fieldD (v : BitVec 32) : RegIdx := (v.extractLsb' 20 3).toFin
def fieldA (v : BitVec 32) : RegIdx := (v.extractLsb' 16 3).toFin
def fieldB (v : BitVec 32) : RegIdx := (v.extractLsb' 12 3).toFin
def fieldM (v : BitVec 32) : RegIdx := (v.extractLsb' 8 3).toFin

/-- One row of rule R104: a word is this command exactly when `v & mask = pattern`. `tops` marks the top bits of the
register fields the format uses; it only tells the reasons of `Illegal` apart. -/
structure OpcodeRow where
  op : BitVec 8
  pattern : BitVec 32
  mask : BitVec 32
  tops : BitVec 32
  build : BitVec 32 → Instr

/-- The opcode map (rule R104; spec/opcode_table.json). -/
def opcodeMap : List OpcodeRow := [
  ⟨0x01, 0x01000000, 0xFF8FFFFF, 0x00800000, fun v => .zero (fieldD v)⟩,
  ⟨0x02, 0x02000000, 0xFF88FFFF, 0x00880000, fun v => .copy (fieldD v) (fieldA v)⟩,
  ⟨0x03, 0x03000000, 0xFFF88FFF, 0x00088000, fun v => .cmp (fieldA v) (fieldB v)⟩,
  ⟨0x04, 0x04000000, 0xFFF8FFFF, 0x00080000, fun v => .iseven (fieldA v)⟩,
  ⟨0x05, 0x05000000, 0xFF888FFF, 0x00888000, fun v => .sub (fieldD v) (fieldA v) (fieldB v)⟩,
  ⟨0x06, 0x06000000, 0xFF88FFFF, 0x00880000, fun v => .shr1 (fieldD v) (fieldA v)⟩,
  ⟨0x07, 0x07000000, 0xFF8FFFFF, 0x00800000, fun v => .randc (fieldD v)⟩,
  ⟨0x08, 0x08000000, 0xFF8888FF, 0x00888800, fun v => .mulmod (fieldD v) (fieldA v) (fieldB v) (fieldM v)⟩,
  ⟨0x09, 0x09000000, 0xFF8888FF, 0x00888800, fun v => .powmod (fieldD v) (fieldA v) (fieldB v) (fieldM v)⟩,
  ⟨0x0A, 0x0A000000, 0xFFF8FFFF, 0x00080000, fun v => .mrtest (fieldA v)⟩]

/-- Decoding (rule R112): look `op` up; check the mask; extract the fields. -/
def decode (v : BitVec 32) : Except Illegal Instr :=
  match opcodeMap.find? (fun r => decide (r.op = v.extractLsb' 24 8)) with
  | none => .error .unassignedOpcode
  | some r =>
    if v &&& r.mask = r.pattern then .ok (r.build v)
    else if v &&& r.tops = 0 then .error .reservedNotZero
    else .error .registerOutOfRange

/-- A command word from its fields (rule R101): opcode, the four 4-bit register fields with top bit 0, and `z` = 0. A field
the format does not use is given as 0 (rule R102). -/
def commandWord (op : BitVec 8) (rd ra rb rm : RegIdx) : BitVec 32 :=
  op ++ 0#1 ++ BitVec.ofFin (w := 3) rd ++ 0#1 ++ BitVec.ofFin (w := 3) ra ++
    0#1 ++ BitVec.ofFin (w := 3) rb ++ 0#1 ++ BitVec.ofFin (w := 3) rm ++ 0#8

/-- The command word of an instruction (rules R101, R102, R104, R113). -/
def encode : Instr → BitVec 32
  | .zero rd => commandWord 0x01 rd 0 0 0
  | .copy rd ra => commandWord 0x02 rd ra 0 0
  | .cmp ra rb => commandWord 0x03 0 ra rb 0
  | .iseven ra => commandWord 0x04 0 ra 0 0
  | .sub rd ra rb => commandWord 0x05 rd ra rb 0
  | .shr1 rd ra => commandWord 0x06 rd ra 0 0
  | .randc rd => commandWord 0x07 rd 0 0 0
  | .mulmod rd ra rb rm => commandWord 0x08 rd ra rb rm
  | .powmod rd ra rb rm => commandWord 0x09 rd ra rb rm
  | .mrtest ra => commandWord 0x0A 0 ra 0 0

/-- The command read from the low `nbits` bits of `w`, every bit above them 0. A command has one length, 32 bits
(rule R100): more bits are no command. -/
def decodeTableWord (nbits w : Nat) : Option Instr :=
  if nbits ≤ 32 then
    match decode (BitVec.ofNat 32 (w % 2 ^ nbits)) with
    | .ok i => some i
    | .error _ => none
  else none

end Sys2Proof
end

