-- ==== Sys2Proof/Config.lean ====
section
/-! DEFINITION. What the hardware fixes once, and the free values: constants without a body, which no proof can evaluate.
`PORT_PROTOCOL`, `RESET_KIND` (rule R13) have no counterpart: no rule depends on them (assumption log 12).
`MOD_REDUCE_MECHANISM` (rules R13, R206) is the mathematical remainder (assumption log 13). -/

namespace Sys2Proof.Config

/-- `N`: machine words of a FixedWidthInt (rule R8). -/
def numWords : Nat := 8

/-- `w`: bits of a machine word (rule R9). -/
def wordBits : Nat := 64

/-- `W = w · N`: bits of a FixedWidthInt (rule R10). -/
def width : Nat := wordBits * numWords

/-- `R_DEFAULT`: the Miller-Rabin rounds after reset (rules R12, R47). -/
def defaultRounds : BitVec 16 := 10

/-- FREE VALUE (rule R35, U3 of 93_implementation_defined.md; assumption log 1): what the bits of register `k` that nothing
has written since reset read as at the use numbered `t`. -/
opaque freeRegister (t : Nat) (k : RegIdx) : Word

/-- FREE VALUE (rule R76, U4; assumption log 4): the byte an OPMEM read returns while BUSY = 1, at the use numbered `t`. -/
opaque freeByte (t : Nat) : Byte

end Sys2Proof.Config
end

