-- ==== Sys2Proof/Machine/State.lean ====
section
/-! DEFINITION. The state of the machine: the engine's registers, flags and hidden state, and, as plain data, what the two
other agents (host, random-word source) have done and will do (rules R14, R30 to R55). -/

namespace Sys2Proof.Machine

/-- An operand register (rule R30) and which of its bits something has written since reset (rules R35, R254). An unwritten
bit of `value` is stored as 0 and never read: a read gives a free value there (assumption log 1). -/
structure Reg where
  value : Word
  written : Word
  /-- The bits that have been given a value since reset as rule R254 counts it: by a host write, or by a command whose own
  sources were so initialised. No step's effect depends on it (assumption log 16). -/
  initialised : Word
  deriving DecidableEq, Repr

/-- STATUS.CMP (rule R41). -/
inductive CmpResult where
  /-- 0: the operands were equal; also the value after reset. -/
  | equal
  /-- +1: the first operand was greater. -/
  | greater
  /-- -1: the first operand was less. -/
  | less
  deriving DecidableEq, Repr

/-- STATUS.VERDICT (rule R44). -/
inductive Verdict where
  /-- No MRTEST has completed since reset or since the last MRTEST was accepted. -/
  | none
  | probablyPrime
  | composite
  deriving DecidableEq, Repr

/-- STATUS.PHASE: the states of the Miller-Rabin state machine (rules R37, R196). -/
inductive Phase where
  | idle
  | start
  | decomposed
  | roundInProgress
  | probablyPrime
  | composite
  deriving DecidableEq, Repr

/-- The fields of STATUS (rule R38) but BUSY, which is `State.busy`, and the reserved bits, which read 0. The host reads
STATUS as one word, `State.statusWord`, and cannot write it. -/
structure Status where
  done : Bool
  cmp : CmpResult
  even : Bool
  borrow : Bool
  verdict : Verdict
  phase : Phase
  ill : Bool
  deriving DecidableEq, Repr

/-- The hidden state of the command in flight (rules R34, R50): it exists from the accept step to the complete step only
(rule R51; assumption log 9). What a format or command does not use is 0. -/
structure Flight where
  /-- The command latch, decoded. -/
  instr : Instr
  /-- The operand latch of `R[ra]`; for MRTEST the candidate `n`. -/
  opA : Word
  /-- The operand latch of `R[rb]`. -/
  opB : Word
  /-- The operand latch of `R[rm]`. -/
  opM : Word
  /-- `Rs`, the round count MRTEST samples at accept (rule R197). -/
  rs : BitVec 16
  /-- The random words pulled so far for this RANDC, or for this round of MRTEST, first drawn first (rules R160, R204). -/
  draws : List Limb
  /-- Whether every register the accept step latched was initialised (rule R254; assumption log 16). -/
  initialised : Bool
  /-- MRTEST: `n - 1` (rule R199). -/
  nm1 : Word
  /-- MRTEST: `d` (rule R199). -/
  d : Word
  /-- MRTEST: `s` (rule R199). -/
  sh : Nat
  /-- MRTEST: `k`, the rounds passed (rule R201). -/
  passed : Nat
  deriving DecidableEq, Repr

/-- The four transactions of the host port (rule R70). Addresses and indices have exactly the ranges that exist (U12). -/
inductive HostOp where
  /-- `MemRead(addr, 1)`, rules R74, R76. -/
  | memRead (addr : BitVec 9)
  /-- `MemWrite(addr, 1, b)`, rules R75, R76. -/
  | memWrite (addr : BitVec 9) (b : Byte)
  /-- `CsrRead(i)`, rule R80. -/
  | csrRead (i : Fin 16)
  /-- `CsrWrite(i, v)`, rules R81, R83, R84. -/
  | csrWrite (i : Fin 16) (v : BitVec 32)
  deriving DecidableEq, Repr

/-- What happens between two polls of a `WAIT` (rule R216 leaves it open): words the source delivers, then engine turns. -/
structure Gap where
  delivered : List Limb
  turns : Nat
  deriving DecidableEq, Repr

/-- One atomic thing that happens (rules R14, R70, R90, R251), or a `WAIT` that the host is at (rule R115). -/
inductive Event where
  /-- The host issues a transaction. -/
  | host (t : HostOp)
  /-- The host polls STATUS until DONE or ILL is 1 (rules R115, R255, R256): one poll now, and where that does not end the
  `WAIT`, the first gap and then the `WAIT` again. After the last gap given, one engine turn stands between polls. -/
  | wait (gaps : List Gap)
  /-- The random-word source delivers a word (rule R88). -/
  | deliver (w : Limb)
  /-- `rst` is asserted and released (rule R251). -/
  | reset
  /-- The engine takes its next step. -/
  | engine
  deriving DecidableEq, Repr

/-- What a host read returned (rules R74, R76, R80). -/
inductive ReadValue where
  | byte (b : Byte)
  /-- The byte of an OPMEM read while BUSY = 1: unspecified, and not observed (rules R76, R267). -/
  | busyByte (b : Byte)
  | word (v : BitVec 32)
  deriving DecidableEq, Repr

/-- The machine. -/
structure State where
  /-- R0 to R7 (rule R30). -/
  regs : Vector Reg 8
  /-- STATUS but BUSY (rule R38). -/
  status : Status
  /-- CMD: the last command word accepted (rule R48). -/
  cmd : BitVec 32
  /-- ROUNDS.R (rule R47). -/
  rounds : BitVec 16
  /-- The command in flight; BUSY = 1 exactly when there is one (rule R39; assumption log 9). -/
  flight : Option Flight
  /-- The words the random-word source has delivered and the engine has not pulled, next first (rules R87, R88). -/
  source : List Limb
  /-- `ridx`: how many words have been pulled (rules R53, R87). -/
  ridx : Nat
  /-- What happens next, and by which agent; when it is empty the engine takes its turns (assumption log 6). -/
  agenda : List Event
  /-- What the host's reads have returned, oldest first (rule R267; assumption log 5). -/
  returned : List ReadValue
  /-- The number of the next use of a free value (assumption log 5). -/
  freeIdx : Nat
  deriving DecidableEq, Repr

/-- The engine has no exceptions (rule R230), so no step ends in a fault: there is none to raise. Safe: every step answers a
next state. -/
inductive Fault where
  deriving DecidableEq, Repr

/-- Reasons to refuse an instruction. -/
inductive Refusal where
  /-- Raised by `exec`'s arm of a command that has no meaning yet, and by nothing else; no arm is so now. Safe. -/
  | notModelled (mnemonic : String)
  deriving DecidableEq, Repr

/-- All flags 0, PHASE Idle (rule R55). -/
def Status.cleared : Status := ⟨false, .equal, false, false, .none, .idle, false⟩

/-- The machine right after reset (rules R55, R251): no register bit written; STATUS, CMD 0; ROUNDS.R 10; no command in
flight. The stored register value 0 and the empty lists and counters of source, agenda, reads are the model's choice
(assumption log 1, 5, 6, 7). -/
def State.reset : State where
  regs := Vector.replicate 8 ⟨0, 0, 0⟩
  status := Status.cleared
  cmd := 0
  rounds := Config.defaultRounds
  flight := none
  source := []
  ridx := 0
  agenda := []
  returned := []
  freeIdx := 0

end Sys2Proof.Machine
end

