-- ==== Sys2Proof/Machine/Ops.lean ====
section
/-! DEFINITION. The named operations on registers, OPMEM bytes, the random-word source and the command in flight: the accept,
complete and illegal-command steps every command has (rules R108 to R110). There is no exception entry or return to model
(rules R230, R235): the illegal-command step is what the engine has in its place. -/

namespace Sys2Proof.Machine

/-! ## Words and bytes -/

/-- Every bit written. -/
def allBits : Word := BitVec.allOnes 512

/-- The place of the byte at offset `o` of a register: offset 0 is the most significant byte (rule R73). -/
def byteShift (o : BitVec 6) : Nat := 8 * (63 - o.toNat)

/-- Byte `o` of a register's value (rule R73). -/
def getByte (v : Word) (o : BitVec 6) : Byte := v.extractLsb' (byteShift o) 8

/-- The 8 bits of byte `o` (rule R73). -/
def byteMask (o : BitVec 6) : Word := (BitVec.allOnes 8).setWidth 512 <<< byteShift o

/-- `v` with byte `o` replaced; the other 504 bits unchanged (rule R75). -/
def setByte (v : Word) (o : BitVec 6) (b : Byte) : Word :=
  (v &&& ~~~ byteMask o) ||| (b.setWidth 512 <<< byteShift o)

/-- `addr[8:6]`: the register an OPMEM address lies in (rule R72). -/
def opmemReg (addr : BitVec 9) : RegIdx := (addr.extractLsb' 6 3).toFin

/-- `addr[5:0]`: the offset in that register (rule R72). -/
def opmemOffset (addr : BitVec 9) : BitVec 6 := addr.extractLsb' 0 6

/-- `Σ w_i · 2^(64i)`: the value of machine words, word 0 first (rules R16, R160, R204). -/
def limbsValue : List Limb → Nat
  | [] => 0
  | w :: ws => w.toNat + 2 ^ 64 * limbsValue ws

/-! ## One operand register -/

/-- A register all of whose bits have been written and initialised (rules R35, R254). -/
def Reg.full (v : Word) : Reg := ⟨v, allBits, allBits⟩

/-- A register a command has written: every bit is written, and initialised if the command's sources were (rule R254). -/
def Reg.result (v : Word) (initialised : Bool) : Reg := ⟨v, allBits, if initialised then allBits else 0⟩

/-- A register as it is read: a written bit as stored, an unwritten bit as `free` has it (rule R35; assumption log 1). -/
def Reg.under (r : Reg) (free : Word) : Word :=
  if r.written = allBits then r.value else (r.value &&& r.written) ||| (free &&& ~~~ r.written)

/-- A register after the host wrote byte `o` (rules R33, R75, R254). -/
def Reg.withByte (r : Reg) (o : BitVec 6) (b : Byte) : Reg :=
  ⟨setByte r.value o b, r.written ||| byteMask o, r.initialised ||| byteMask o⟩

/-- The canonical form: an unwritten bit is stored as 0, so that equal registers are equal data. -/
abbrev Reg.canonical (r : Reg) : Prop := r.value &&& ~~~ r.written = 0

/-- An initialised bit is a written one. -/
abbrev Reg.initialisedIsWritten (r : Reg) : Prop := r.initialised &&& ~~~ r.written = 0

/-! ## The register file and OPMEM -/

/-- `R[k] <- v` (rules R17, R109): a command writes all 512 bits (assumption log 3); they are initialised if its sources
were (rule R254). -/
def State.setReg (s : State) (k : RegIdx) (v : Word) (initialised : Bool) : State :=
  { s with regs := s.regs.set k.val (Reg.result v initialised) k.isLt }

/-- Register `k` has been initialised since reset: all its 512 bits (rule R254). -/
def State.initialised (s : State) (k : RegIdx) : Bool :=
  decide ((s.regs[k]).written = allBits ∧ (s.regs[k]).initialised = allBits)

/-- `R[k]` as it reads at this use (rules R17, R35). -/
def State.view (s : State) (k : RegIdx) : Word :=
  (s.regs[k]).under (Config.freeRegister s.freeIdx k)

/-- BUSY (rule R39). -/
def State.busy (s : State) : Bool := s.flight.isSome

/-- MemRead while BUSY = 0 (rule R74): the byte goes to the host; nothing else changes but the count of free values used. -/
def State.readByte (s : State) (addr : BitVec 9) : State :=
  { s with returned := s.returned ++ [.byte (getByte (s.view (opmemReg addr)) (opmemOffset addr))]
           freeIdx := s.freeIdx + 1 }

/-- MemRead while BUSY = 1 (rule R76): an unspecified byte. -/
def State.readFreeByte (s : State) : State :=
  { s with returned := s.returned ++ [.busyByte (Config.freeByte s.freeIdx)]
           freeIdx := s.freeIdx + 1 }

/-- MemWrite while BUSY = 0 (rule R75). -/
def State.writeByte (s : State) (addr : BitVec 9) (b : Byte) : State :=
  let k := opmemReg addr
  { s with regs := s.regs.set k.val ((s.regs[k]).withByte (opmemOffset addr) b) k.isLt }

/-! ## The random-word port -/

/-- The source delivers a word (rule R88). -/
def State.deliver (s : State) (w : Limb) : State :=
  { s with source := s.source ++ [w] }

/-- `Draw()` for the command in flight `f` (rules R87, R88): the next word is consumed and kept among the draws; where the
source has delivered none, the engine waits and nothing changes. -/
def State.pull (s : State) (f : Flight) : State :=
  match s.source with
  | [] => s
  | w :: ws => { s with source := ws, ridx := s.ridx + 1, flight := some { f with draws := f.draws ++ [w] } }

/-! ## The steps every command has -/

/-- A command just latched, nothing drawn or computed yet (rules R50, R51, R108). -/
def Flight.latched (i : Instr) (a b m : Word) (rs : BitVec 16) (initialised : Bool) : Flight :=
  ⟨i, a, b, m, rs, [], initialised, 0, 0, 0, 0⟩

/-- The accept step (rule R108) with the operand latches given: CMD, BUSY, DONE, ILL. -/
def State.accept (s : State) (f : Flight) : State :=
  { s with cmd := encode f.instr
           status := { s.status with done := false, ill := false }
           flight := some f
           freeIdx := s.freeIdx + 1 }

/-- The complete step's common part (rule R109): BUSY 0, DONE 1. -/
def State.complete (s : State) : State :=
  { s with status := { s.status with done := true }, flight := none }

/-- The illegal-command step (rule R110). -/
def State.illegal (s : State) : State :=
  { s with status := { s.status with done := false, ill := true } }

/-- The shape of every command's meaning: with no command in flight it is accepted (rule R108); in flight itself, it takes
its next step; while another is in flight, the offer is dropped (rule R111). -/
def command (i : Instr) (s accepted : State) (turn : Flight → State) : Host.Outcome State Fault Refusal :=
  match s.flight with
  | none => .next accepted
  | some f => if f.instr = i then .next (turn f) else .next s

/-- Reset (rules R251, R252): the engine's state is that of `State.reset`; the command in flight is abandoned. The source,
its position, the host's agenda and what it has read are not the engine's and stay; words already pulled are lost. -/
def State.hardReset (s : State) : State :=
  { State.reset with source := s.source, ridx := s.ridx, agenda := s.agenda, returned := s.returned, freeIdx := s.freeIdx }

end Sys2Proof.Machine
end

