-- ==== Sys2Proof/Machine/Operands.lean ====
section
/-! DEFINITION. The operand forms: the accept step of each format of rule R102, which latches the source registers that the
format uses (rules R34, R108), and whether they are initialised (rule R254). All latches of one accept step read the registers at the same use of the free values, so a
register latched twice gives one value (assumption log 2). -/

namespace Sys2Proof.Machine

/-- Format D: no source register. -/
def State.acceptD (s : State) (i : Instr) : State :=
  s.accept (Flight.latched i 0 0 0 0 true)

/-- Formats DA and A: `R[ra]`. -/
def State.acceptA (s : State) (i : Instr) (ra : RegIdx) : State :=
  s.accept (Flight.latched i (s.view ra) 0 0 0 (s.initialised ra))

/-- Formats AB and DAB: `R[ra]`, `R[rb]`. -/
def State.acceptAB (s : State) (i : Instr) (ra rb : RegIdx) : State :=
  s.accept (Flight.latched i (s.view ra) (s.view rb) 0 0 (s.initialised ra && s.initialised rb))

/-- Format DABM: `R[ra]`, `R[rb]`, `R[rm]`. -/
def State.acceptABM (s : State) (i : Instr) (ra rb rm : RegIdx) : State :=
  s.accept (Flight.latched i (s.view ra) (s.view rb) (s.view rm) 0
    (s.initialised ra && s.initialised rb && s.initialised rm))

end Sys2Proof.Machine
end

