-- ==== Sys2Proof/Machine/Candidate.lean ====
section
/-! DEFINITION. RANDC (41_candidate.md, rules R160 to R163): accept, eight pulls, complete. -/

namespace Sys2Proof.Machine

/-- The candidate made of the drawn words, word 0 drawn first: bits 511 and 0 forced to 1 (rule R160). -/
def candidateOf (draws : List Limb) : Word :=
  BitVec.ofNat 512 (limbsValue draws) ||| BitVec.twoPow 512 511 ||| 1

/-- RANDC, rule R160. A turn pulls the next word (rules R87, R88) until eight are drawn; then the command completes. -/
def execRandc (rd : RegIdx) (s : State) : Host.Outcome State Fault Refusal :=
  command (.randc rd) s (s.acceptD (.randc rd)) fun f =>
    if f.draws.length < Config.numWords then s.pull f else (s.setReg rd (candidateOf f.draws) true).complete

end Sys2Proof.Machine
end

