-- ==== Sys2Proof/Machine/Flags.lean ====
section
/-! DEFINITION. The flag computations and the STATUS word (rules R37 to R46). -/

namespace Sys2Proof.Machine

/-- CMP of two unsigned values (rule R132). -/
def compareWords (a b : Word) : CmpResult :=
  if b.toNat < a.toNat then .greater else if a.toNat = b.toNat then .equal else .less

/-- EVEN of a value (rule R134): bit 0 is 0. -/
def isEven (a : Word) : Bool := !a.getLsbD 0

/-- BORROW of a subtraction (rules R43, R136, R137). -/
def borrowOut (a b : Word) : Bool := decide (a.toNat < b.toNat)

/-- The code of CMP (rule R41). -/
def CmpResult.code : CmpResult → BitVec 2
  | .equal => 0b00
  | .greater => 0b01
  | .less => 0b11

/-- The code of VERDICT (rule R44). -/
def Verdict.code : Verdict → BitVec 2
  | .none => 0b00
  | .probablyPrime => 0b01
  | .composite => 0b10

/-- The code of PHASE (rule R37). -/
def Phase.code : Phase → BitVec 3
  | .idle => 0
  | .start => 1
  | .decomposed => 2
  | .roundInProgress => 3
  | .probablyPrime => 4
  | .composite => 5

/-- STATUS as the host reads it, the fields from bit 31 down to bit 0 (rule R38). -/
def State.statusWord (s : State) : BitVec 32 :=
  0#20 ++ BitVec.ofBool s.status.ill ++ s.status.phase.code ++ s.status.verdict.code ++ BitVec.ofBool s.status.borrow ++
    BitVec.ofBool s.status.even ++ s.status.cmp.code ++ BitVec.ofBool s.status.done ++ BitVec.ofBool s.busy

/-- The `done` output (rule R233). -/
def State.doneOutput (s : State) : Bool := s.status.done

/-- `CMP <- c`. -/
def State.setCmp (s : State) (c : CmpResult) : State := { s with status := { s.status with cmp := c } }

/-- `EVEN <- e`. -/
def State.setEven (s : State) (e : Bool) : State := { s with status := { s.status with even := e } }

/-- `BORROW <- b`. -/
def State.setBorrow (s : State) (b : Bool) : State := { s with status := { s.status with borrow := b } }

/-- `PHASE <- p`. -/
def State.setPhase (s : State) (p : Phase) : State := { s with status := { s.status with phase := p } }

/-- `VERDICT <- v`. -/
def State.setVerdict (s : State) (v : Verdict) : State := { s with status := { s.status with verdict := v } }

end Sys2Proof.Machine
end

