-- ==== Sys2Proof/Machine/ModArith.lean ====
section
/-! DEFINITION. MULMOD and POWMOD (42_mulmod.md, rules R170 to R177; 43_powmod.md, rules R185 to R190). A function answers
`none` where the engine's loop never ends (rule R174). -/

namespace Sys2Proof.Machine

/-- `(A · B) mod M`; never completes for `M = 0` (rules R170, R174). -/
def mulmod (a b m : Word) : Option Word :=
  if m = 0 then none else some (BitVec.ofNat 512 (a.toNat * b.toNat % m.toNat))

/-- The iterations `k`, `k + 1`, ... of the loop of rule R186, as many as `left` says, on the running `result` and `b`: bit
`k` of the exponent decides the multiplication; the squaring is unconditional. -/
def powmodFrom (e m : Word) (left k : Nat) (result b : Word) : Option Word :=
  match left with
  | 0 => some result
  | left + 1 =>
    match (if e.getLsbD k then mulmod result b m else some result), mulmod b b m with
    | some result', some b' => powmodFrom e m left (k + 1) result' b'
    | _, _ => none

/-- Square-and-multiply over all 512 bits of the exponent, bit 0 first (rules R186 to R188). -/
def powmod (a e m : Word) : Option Word := powmodFrom e m Config.width 0 1 a

/-- The destination written and the command completed with the value, or no progress where there is none: BUSY stays 1
until reset (rules R174, R188; assumption log 10). -/
def State.completeWith (s : State) (rd : RegIdx) (v : Option Word) (initialised : Bool) : State :=
  match v with
  | some v => (s.setReg rd v initialised).complete
  | none => s

/-- MULMOD, rules R170 to R176. -/
def execMulmod (rd ra rb rm : RegIdx) (s : State) : Host.Outcome State Fault Refusal :=
  command (.mulmod rd ra rb rm) s (s.acceptABM (.mulmod rd ra rb rm) ra rb rm) fun f =>
    s.completeWith rd (mulmod f.opA f.opB f.opM) f.initialised

/-- POWMOD, rules R185 to R189: base `R[ra]`, exponent `R[rb]`, modulus `R[rm]`. -/
def execPowmod (rd ra rb rm : RegIdx) (s : State) : Host.Outcome State Fault Refusal :=
  command (.powmod rd ra rb rm) s (s.acceptABM (.powmod rd ra rb rm) ra rb rm) fun f =>
    s.completeWith rd (powmod f.opA f.opB f.opM) f.initialised

end Sys2Proof.Machine
end

