-- ==== Sys2Proof/Machine/MillerRabin.lean ====
section
/-! DEFINITION. MRTEST as the state machine of 44_miller_rabin.md (rules R195 to R212): one transition of rule R196, or one
pull of a random word, is one step of the engine. -/

namespace Sys2Proof.Machine

/-- The accept step of MRTEST (rule R197): that of format A, with ROUNDS.R sampled, PHASE Start and VERDICT cleared. -/
def State.acceptMrtest (s : State) (ra : RegIdx) : State :=
  ((s.accept (Flight.latched (.mrtest ra) (s.view ra) 0 0 s.rounds (s.initialised ra))).setPhase .start).setVerdict .none

/-- The loop of rule R199: shift right while even, counting; at most `fuel` times. -/
def decomposeFrom (fuel : Nat) (t : Word) (s : Nat) : Word × Nat :=
  match fuel with
  | 0 => (t, s)
  | fuel + 1 => if t.getLsbD 0 then (t, s) else decomposeFrom fuel (t >>> 1) (s + 1)

/-- `(d, s)` with `n - 1 = d · 2^s` and `d` odd (rules R199, R200). 511 shifts suffice for a value that is not 0. -/
def decompose (nm1 : Word) : Word × Nat := decomposeFrom Config.width nm1 0

/-- `r mod m`, however it is computed (rule R206; assumption log 13); a zero modulus has no remainder. -/
def remainder (r m : Word) : Option Word :=
  if m = 0 then none else some (BitVec.ofNat 512 (r.toNat % m.toNat))

/-- The witness `a = (r mod (n - 2)) + 2` (rules R205, R206). -/
def witness (r nm1 : Word) : Option Word :=
  (remainder r (nm1 - 1)).map (· + 2)

/-- The squaring loop of rule R209 with `left` squarings to go: does `x` reach `n - 1`? -/
def squaringLoop (n nm1 : Word) (left : Nat) (x : Word) : Option Bool :=
  match left with
  | 0 => some false
  | left + 1 =>
    match mulmod x x n with
    | none => none
    | some y => if y = nm1 then some true else squaringLoop n nm1 left y

/-- A round from its witness (rules R207 to R209): does it pass? -/
def roundWith (n nm1 d : Word) (s : Nat) (a : Word) : Option Bool :=
  match powmod a d n with
  | none => none
  | some x => if x = 1 ∨ x = nm1 then some true else squaringLoop n nm1 (s - 1) x

/-- A round from its eight drawn words (rules R204 to R209). `none` only where a modulus `n` or `n - 2` is 0, which no
MRTEST reaches (rule R257; assumption log 14). -/
def roundOf (f : Flight) : Option Bool :=
  match witness (BitVec.ofNat 512 (limbsValue f.draws)) f.nm1 with
  | none => none
  | some a => roundWith f.opA f.nm1 f.d f.sh a

/-- Completion with the verdict ProbablyPrime (rule R212). -/
def State.completePrime (s : State) : State :=
  ((s.setVerdict .probablyPrime).setPhase .probablyPrime).complete

/-- Completion with the verdict Composite (rule R212). -/
def State.completeComposite (s : State) : State :=
  ((s.setVerdict .composite).setPhase .composite).complete

/-- Start (rules R198, R199): Composite at once, or decompose. -/
def State.mrStart (s : State) (f : Flight) : State :=
  if isEven f.opA ∨ f.opA = 1 then s.completeComposite
  else
    let nm1 := f.opA - 1
    let ds := decompose nm1
    { s.setPhase .decomposed with flight := some { f with nm1 := nm1, d := ds.1, sh := ds.2, passed := 0 } }

/-- Round control with `k` rounds passed (rules R201 to R203): ProbablyPrime when all have, else a round begins. -/
def State.mrRoundControl (s : State) (f : Flight) (k : Nat) : State :=
  if k = f.rs.toNat then s.completePrime
  else { s.setPhase .roundInProgress with flight := some { f with draws := [], passed := k } }

/-- A turn inside a round (rules R204 to R211): pull a word, or, all eight drawn, decide the round. -/
def State.mrRound (s : State) (f : Flight) : State :=
  if f.draws.length < Config.numWords then s.pull f
  else
    match roundOf f with
    | some true => s.mrRoundControl f (f.passed + 1)
    | some false => s.completeComposite
    | none => s

/-- The step of MRTEST that PHASE selects (rule R196); no other transition exists. -/
def State.mrTurn (s : State) (f : Flight) : State :=
  match s.status.phase with
  | .start => s.mrStart f
  | .decomposed => s.mrRoundControl f f.passed
  | .roundInProgress => s.mrRound f
  | .idle => s
  | .probablyPrime => s
  | .composite => s

/-- MRTEST, rules R195 to R219. -/
def execMrtest (ra : RegIdx) (s : State) : Host.Outcome State Fault Refusal :=
  command (.mrtest ra) s (s.acceptMrtest ra) s.mrTurn

end Sys2Proof.Machine
end

