-- ==== Sys2Proof/Machine/Primitives.lean ====
section
/-! DEFINITION. ZERO, COPY, CMP, ISEVEN, SUB, SHR1 (40_primitives.md, rules R130 to R142). Each has two steps: accept
(rule R108), complete (rule R109). -/

namespace Sys2Proof.Machine

/-- `A - B`, wrapped modulo 2^512 (rules R135 to R137). The value for `A < B` is this spec's decision D16. -/
def difference (a b : Word) : Word := a - b

/-- `A div 2` (rule R139). -/
def shiftRight1 (a : Word) : Word := a >>> 1

/-- ZERO, rule R130. -/
def execZero (rd : RegIdx) (s : State) : Host.Outcome State Fault Refusal :=
  command (.zero rd) s (s.acceptD (.zero rd)) fun _ => (s.setReg rd 0 true).complete

/-- COPY, rule R131. -/
def execCopy (rd ra : RegIdx) (s : State) : Host.Outcome State Fault Refusal :=
  command (.copy rd ra) s (s.acceptA (.copy rd ra) ra) fun f => (s.setReg rd f.opA f.initialised).complete

/-- CMP, rule R132. -/
def execCmp (ra rb : RegIdx) (s : State) : Host.Outcome State Fault Refusal :=
  command (.cmp ra rb) s (s.acceptAB (.cmp ra rb) ra rb) fun f => (s.setCmp (compareWords f.opA f.opB)).complete

/-- ISEVEN, rule R134. -/
def execIseven (ra : RegIdx) (s : State) : Host.Outcome State Fault Refusal :=
  command (.iseven ra) s (s.acceptA (.iseven ra) ra) fun f => (s.setEven (isEven f.opA)).complete

/-- SUB, rules R135 to R137. -/
def execSub (rd ra rb : RegIdx) (s : State) : Host.Outcome State Fault Refusal :=
  command (.sub rd ra rb) s (s.acceptAB (.sub rd ra rb) ra rb) fun f =>
    ((s.setReg rd (difference f.opA f.opB) f.initialised).setBorrow (borrowOut f.opA f.opB)).complete

/-- SHR1, rule R139. -/
def execShr1 (rd ra : RegIdx) (s : State) : Host.Outcome State Fault Refusal :=
  command (.shr1 rd ra) s (s.acceptA (.shr1 rd ra) ra) fun f =>
    (s.setReg rd (shiftRight1 f.opA) f.initialised).complete

end Sys2Proof.Machine
end

