-- ==== Sys2Proof/Machine/Dispatch.lean ====
section
/-! DEFINITION. The dispatcher: one arm per command. `exec i s` is the next step of command `i` at `s`: its accept step when
no command is in flight, its next step on the way to its complete step when it is in flight itself (rules R108, R109). -/

namespace Sys2Proof.Machine

def exec (i : Instr) (s : State) : Host.Outcome State Fault Refusal :=
  match i with
  | .zero rd => Sys2Proof.Machine.execZero rd s
  | .copy rd ra => Sys2Proof.Machine.execCopy rd ra s
  | .cmp ra rb => Sys2Proof.Machine.execCmp ra rb s
  | .iseven ra => Sys2Proof.Machine.execIseven ra s
  | .sub rd ra rb => Sys2Proof.Machine.execSub rd ra rb s
  | .shr1 rd ra => Sys2Proof.Machine.execShr1 rd ra s
  | .randc rd => Sys2Proof.Machine.execRandc rd s
  | .mulmod rd ra rb rm => Sys2Proof.Machine.execMulmod rd ra rb rm s
  | .powmod rd ra rb rm => Sys2Proof.Machine.execPowmod rd ra rb rm s
  | .mrtest ra => Sys2Proof.Machine.execMrtest ra s

end Sys2Proof.Machine
end

