-- ==== Sys2Proof/Machine/HostPort.lean ====
section
/-! DEFINITION. The host port (20_memory.md): what each transaction does at each value of BUSY, and the other events. -/

namespace Sys2Proof.Machine

/-- CsrRead (rules R48, R49, R80): at any value of BUSY. -/
def State.csrValue (s : State) (i : Fin 16) : BitVec 32 :=
  match i.val with
  | 0 => s.cmd
  | 1 => s.statusWord
  | 2 => s.rounds.setWidth 32
  | _ => 0

/-- The value goes to the host; nothing else changes (rule R80). -/
def State.readCsr (s : State) (i : Fin 16) : State :=
  { s with returned := s.returned ++ [.word (s.csrValue i)] }

/-- The end condition of `WAIT` on a STATUS word: DONE or ILL (rules R115, R256). -/
def waitOver (status : BitVec 32) : Bool := status.getLsbD 1 || status.getLsbD 11

/-- The events of a gap. -/
def Gap.events (g : Gap) : List Event := g.delivered.map Event.deliver ++ List.replicate g.turns Event.engine

/-- What follows a poll that does not end the `WAIT`: the next gap, and the `WAIT` again (assumption log 17). -/
def waitAgain : List Gap → List Event
  | [] => [.engine, .wait []]
  | g :: gaps => g.events ++ [.wait gaps]

/-- One poll of a `WAIT`: `t = CSRR 1`, and again unless `t[1] = 1` or `t[11] = 1` (rule R115). -/
def State.waitPoll (s : State) (gaps : List Gap) : State :=
  if waitOver (s.csrValue 1) then s.readCsr 1
  else { s.readCsr 1 with agenda := waitAgain gaps ++ s.agenda }

/-- `ROUNDS.R <- v[15:0]` (rules R47, R81). -/
def State.setRounds (s : State) (v : BitVec 32) : State :=
  { s with rounds := v.setWidth 16 }

/-- `CsrWrite(0, v)` (rule R83): dropped while BUSY (rule R111), else the accept step of the command (rule R108) or the
illegal-command step (rule R110). -/
def offerCommand (v : BitVec 32) (s : State) : Host.Outcome State Fault Refusal :=
  if s.busy then .next s
  else
    match decode v with
    | .ok i => exec i s
    | .error _ => .next s.illegal

/-- `CsrWrite(i, v)` (rules R49, R81, R83, R84). -/
def csrWrite (i : Fin 16) (v : BitVec 32) (s : State) : Host.Outcome State Fault Refusal :=
  match i.val with
  | 0 => offerCommand v s
  | 2 => if s.busy then .next s else .next (s.setRounds v)
  | _ => .next s

/-- One host transaction (rule R70). -/
def hostTransaction (t : HostOp) (s : State) : Host.Outcome State Fault Refusal :=
  match t with
  | .memRead addr => if s.busy then .next s.readFreeByte else .next (s.readByte addr)
  | .memWrite addr b => if s.busy then .next s else .next (s.writeByte addr b)
  | .csrRead i => .next (s.readCsr i)
  | .csrWrite i v => csrWrite i v s

/-- The engine's turn: the command in flight takes its next step; an idle engine keeps all its state (rule R242). -/
def engineTurn (s : State) : Host.Outcome State Fault Refusal :=
  match s.flight with
  | none => .next s
  | some f => exec f.instr s

/-- One event. -/
def event (e : Event) (s : State) : Host.Outcome State Fault Refusal :=
  match e with
  | .host t => hostTransaction t s
  | .wait gaps => .next (s.waitPoll gaps)
  | .deliver w => .next (s.deliver w)
  | .reset => .next s.hardReset
  | .engine => engineTurn s

/-- `s` with the command word `w` offered next, to an engine that can take it: a CsrWrite to index 0 first in the agenda, and
no command in flight (assumption log 11). A word of more than 32 bits, or with bits above `nbits`, is cut to `nbits`. -/
def offerNext (s : State) (nbits w : Nat) : State :=
  { s with agenda := .host (.csrWrite 0 (BitVec.ofNat 32 (w % 2 ^ nbits))) :: s.agenda, flight := none }

end Sys2Proof.Machine
end

