-- ==== Sys2Proof/Machine/Step.lean ====
section
/-! DEFINITION. One step of the machine: the next event of the agenda takes effect, whole (rule R90); when the agenda is empty
the engine takes its turn. -/

namespace Sys2Proof.Machine

/-- The step. -/
def step (s : State) : Host.Outcome State Fault Refusal :=
  match s.agenda with
  | [] => engineTurn s
  | e :: rest => event e { s with agenda := rest }

/-- `s` with the command word `w` stored where the next step takes a command from: the host's next transaction. -/
def State.withFetchWord (s : State) (nbits w : Nat) : State := offerNext s nbits w

end Sys2Proof.Machine
end

