-- ==== Sys2Proof/Machine/HostScript.lean ====
section
/-! DEFINITION. The host-script notation (rules R113 to R115): what a line of a host script puts into the agenda. -/

namespace Sys2Proof.Machine

/-- A command written by its mnemonic stands for the CsrWrite of its word (rule R113). -/
def issue (i : Instr) : Event := .host (.csrWrite 0 (encode i))

/-- The OPMEM address of offset `o` of register `k`: `64k + o` (rule R72). -/
def opmemAddr (k : RegIdx) (o : Nat) : BitVec 9 := BitVec.ofNat 9 (64 * k.val + o)

/-- `SETR v` (rule R115). -/
def setrScript (v : BitVec 32) : List Event := [.host (.csrWrite 2 v)]

/-- A mnemonic followed by `; WAIT` (rule R115). -/
def issueAndWait (i : Instr) (gaps : List Gap) : List Event := [issue i, .wait gaps]

/-- The byte write of offset `o` in `LDI` and `LDS` (rule R115). -/
def loadByteOp (k : RegIdx) (v : Word) (o : Nat) : HostOp := .memWrite (opmemAddr k o) (getByte v (BitVec.ofNat 6 o))

/-- `LDI Rk, value`: 64 byte writes, most significant byte first (rule R115). -/
def ldiScript (k : RegIdx) (v : Word) : List Event := (List.range 64).map fun o => .host (loadByteOp k v o)

/-- `LDS Rk, value`: ZERO, WAIT, and the 8 low bytes (rule R115). -/
def ldsScript (k : RegIdx) (v : Limb) (gaps : List Gap) : List Event :=
  issueAndWait (.zero k) gaps ++ (List.range' 56 8).map fun o => .host (loadByteOp k (v.setWidth 512) o)

/-- The 64 byte writes of a byte string to a register, offset 0 first (rule R77). -/
def writeScript (k : RegIdx) (bytes : List Byte) : List Event :=
  (List.range 64).map fun o => .host (.memWrite (opmemAddr k o) (bytes.getD o 0))

/-- The 64 byte reads of `RDV Rk` (rule R115). -/
def rdvScript (k : RegIdx) : List Event := (List.range 64).map fun o => .host (.memRead (opmemAddr k o))

/-- The value of a big-endian byte string (rules R73, R115). -/
def bytesValue : List Byte → Nat
  | [] => 0
  | b :: bs => b.toNat * 2 ^ (8 * bs.length) + bytesValue bs

end Sys2Proof.Machine
end

