-- ==== Sys2Proof/Machine/Reference.lean ====
section
/-! DEFINITION. The word-level algorithms and slow references the spec gives beside its value-level definitions (rule R18).
No command calls them; claims say that the two levels agree. -/

namespace Sys2Proof.Machine

/-- The eight machine words of a value, word 0 first (rule R16). -/
def limbs (v : Word) : List Limb := (List.range 8).map fun i => v.extractLsb' (64 * i) 64

/-- Comparison of words, most significant first: the first that differs decides (rule R132). -/
def compareLimbs : List Limb → List Limb → CmpResult
  | a :: as, b :: bs => if a = b then compareLimbs as bs else if b.toNat < a.toNat then .greater else .less
  | _, _ => .equal

/-- Word-wise subtraction with borrow through a 128-bit intermediate, word 0 first (rule R136): the difference words and the
borrow out. -/
def subtractLimbs : List Limb → List Limb → Bool → List Limb × Bool
  | a :: as, b :: bs, borrow =>
    let t : BitVec 128 := a.setWidth 128 - b.setWidth 128 - (BitVec.ofBool borrow).setWidth 128
    let rest := subtractLimbs as bs (t.getLsbD 64)
    (t.setWidth 64 :: rest.1, rest.2)
  | _, _, borrow => ([], borrow)

/-- Word-wise right shift by one, word 0 first: the low bit of the next word becomes the high bit (rule R140). -/
def shiftRight1Limbs : List Limb → List Limb
  | [] => []
  | w :: ws => ((w >>> 1) ||| ((ws.headD 0 &&& 1) <<< 63)) :: shiftRight1Limbs ws

/-- One row of the schoolbook product (rule R172): `a` times the words of the second factor, accumulated with the running
carry into the product buffer from the row's place on; the last carry goes into the word after the row. -/
def productRow (a carry : Limb) : List Limb → List Limb → List Limb
  | b :: bs, p :: ps =>
    let t : BitVec 128 := a.setWidth 128 * b.setWidth 128 + p.setWidth 128 + carry.setWidth 128
    t.setWidth 64 :: productRow a (t.extractLsb' 64 64) bs ps
  | [], _ :: ps => carry :: ps
  | _, [] => []

/-- The rows of the schoolbook product, row `i` one word further up the buffer than row `i - 1` (rule R172). -/
def productRows : List Limb → List Limb → List Limb → List Limb
  | [], _, buffer => buffer
  | a :: as, bs, buffer =>
    match productRow a 0 bs buffer with
    | [] => []
    | w :: rest => w :: productRows as bs rest

/-- The double-width product of two values in a buffer of 16 words that starts at 0 (rule R172). -/
def schoolbookProduct (a b : Word) : List Limb := productRows (limbs a) (limbs b) (List.replicate 16 0)

/-- Reduction by repeated subtraction, cut after `fuel` subtractions: `none` when `p ≥ m` still holds then (rule R173). -/
def reduceBySubtraction : Nat → Nat → Nat → Option Nat
  | 0, p, m => if m ≤ p then none else some p
  | fuel + 1, p, m => if m ≤ p then reduceBySubtraction fuel (p - m) m else some p

/-- The slow reference of exponentiation: repeated multiplication with a reduction at every step (rule R189). -/
def slowPower (a m : Word) : Nat → Option Word
  | 0 => some 1
  | e + 1 =>
    match slowPower a m e with
    | some x => mulmod x a m
    | none => none

/-- How often a number that is not 0 can be halved, tried at most `fuel` times (rule R219: trailing zero bits). -/
def trailingZeros : Nat → Nat → Nat
  | 0, _ => 0
  | fuel + 1, m => if m % 2 = 1 then 0 else trailingZeros fuel (m / 2) + 1

/-- The squarings of rule R219: does one of the next `left` squares of `x` equal `n - 1`? -/
def squaresReach (n : Nat) : Nat → Nat → Bool
  | 0, _ => false
  | left + 1, x => decide (x * x % n = n - 1) || squaresReach n left (x * x % n)

/-- A round of rule R219 with the witness `a`. -/
def witnessPasses (n d s a : Nat) : Bool :=
  let x := a ^ d % n
  decide (x = 1) || decide (x = n - 1) || squaresReach n (s - 1) x

/-- The rounds of rule R219, `left` of them to go, from the words still to be pulled: whether all pass, and how many words
were pulled in all; none where the words run out. -/
def testRounds (n d s : Nat) : Nat → List Limb → Nat → Option (Bool × Nat)
  | 0, _, pulled => some (true, pulled)
  | left + 1, source, pulled =>
    if source.length < 8 then none
    else if witnessPasses n d s (limbsValue (source.take 8) % (n - 2) + 2) then
      testRounds n d s left (source.drop 8) (pulled + 8)
    else some (false, pulled + 8)

/-- MRTEST as one function of the candidate, the round count and the words of the source (rule R219): true for ProbablyPrime,
and the number of words pulled. -/
def millerRabin (n rounds : Nat) (source : List Limb) : Option (Bool × Nat) :=
  if n % 2 = 0 ∨ n = 1 then some (false, 0)
  else
    let s := trailingZeros 512 (n - 1)
    testRounds n ((n - 1) / 2 ^ s) s rounds source 0

end Sys2Proof.Machine
end

