-- ==== Sys2Proof/Safety.lean ====
section
/-! DEFINITION. The terms claims about runs use: quiescence, a command run, what is observed, the host's duties, and the
invariant of the machine. -/

namespace Sys2Proof.Machine

/-- Quiescent: BUSY = 0 (rule R267). -/
abbrev State.quiescent (s : State) : Prop := s.flight = none

/-- At most `k` engine steps of the command in flight, up to its complete step, where its run ends (rule R267). -/
def finishRun : Nat → State → Host.Outcome State Fault Refusal
  | 0, s => .next s
  | k + 1, s =>
    match s.flight with
    | none => .next s
    | some f =>
      match exec f.instr s with
      | .next t => finishRun k t
      | .fault r => .fault r
      | .refused r => .refused r

/-- At most `k` steps of a command run (rule R267), no other agent taking one: it begins with the accept step of `i`, at a
quiescent state, and ends with the complete step. -/
def commandRun (i : Instr) : Nat → State → Host.Outcome State Fault Refusal
  | 0, s => .next s
  | k + 1, s =>
    match exec i s with
    | .next t => finishRun k t
    | .fault r => .fault r
    | .refused r => .refused r

/-- At most `k` steps of the run that a write of the word `v` to CMD begins at a quiescent state: of a legal word the command
run, of an illegal word the illegal-command step and no more (rule R267). -/
def wordRun (v : BitVec 32) : Nat → State → Host.Outcome State Fault Refusal
  | 0, s => .next s
  | k + 1, s =>
    match offerCommand v s with
    | .next t => finishRun k t
    | .fault r => .fault r
    | .refused r => .refused r

/-- `k` steps of the machine, of whichever agents the agenda names. -/
def runSteps : Nat → State → Host.Outcome State Fault Refusal
  | 0, s => .next s
  | k + 1, s =>
    match step s with
    | .next t => runSteps k t
    | .fault r => .fault r
    | .refused r => .refused r

/-- A host script issued from reset (rule R267), with the deliveries and engine turns that go on beside it. -/
def State.ofScript (script : List Event) : State := { State.reset with agenda := script }

/-- The host run of a script has ended in `t`: its last transaction has taken effect and the engine is quiescent (rule R267). A
run in which a command never completes ends in no state. -/
def HostRunEnds (script : List Event) (t : State) : Prop :=
  ∃ k, runSteps k (State.ofScript script) = .next t ∧ t.agenda = [] ∧ t.quiescent

/-- `s` after a whole run of command `i`, less what the command's own rule writes: CMD holds its word, DONE is 1, ILL 0
(rules R108, R109); one use of the free values has been counted. -/
def State.afterCommand (s : State) (i : Instr) : State :=
  { s with cmd := encode i, status := { s.status with done := true, ill := false }, freeIdx := s.freeIdx + 1 }

/-- The register a command writes (rule R32). -/
def destination : Instr → Option RegIdx
  | .zero rd => some rd
  | .copy rd _ => some rd
  | .cmp _ _ => none
  | .iseven _ => none
  | .sub rd _ _ => some rd
  | .shr1 rd _ => some rd
  | .randc rd => some rd
  | .mulmod rd _ _ _ => some rd
  | .powmod rd _ _ _ => some rd
  | .mrtest _ => none

/-- The registers a command reads, in its accept step (rules R32, R34). -/
def sources : Instr → List RegIdx
  | .zero _ => []
  | .copy _ ra => [ra]
  | .cmp ra rb => [ra, rb]
  | .iseven ra => [ra]
  | .sub _ ra rb => [ra, rb]
  | .shr1 _ ra => [ra]
  | .randc _ => []
  | .mulmod _ ra rb rm => [ra, rb, rm]
  | .powmod _ ra rb rm => [ra, rb, rm]
  | .mrtest ra => [ra]

/-- Whether a command is MRTEST. -/
def isMrtest : Instr → Bool
  | .mrtest _ => true
  | .zero _ | .copy _ _ | .cmp _ _ | .iseven _ | .sub _ _ _ | .shr1 _ _ | .randc _ | .mulmod _ _ _ _ | .powmod _ _ _ _ => false

/-- The host's duty before issuing `i` (rule R254): every register it reads is initialised. No step of the model needs it:
a command whose source is not initialised runs on free values (rule R35). -/
def State.dutyMet (s : State) (i : Instr) : Bool := (sources i).all s.initialised

/-- What is observed at the end of a run (rule R267). -/
structure Observation where
  status : BitVec 32
  cmd : BitVec 32
  rounds : BitVec 16
  /-- The value of every register that has been fully written since reset. -/
  regs : List (Option Word)
  /-- The value of every host read but those of OPMEM while BUSY = 1. -/
  returned : List ReadValue
  pulled : Nat
  deriving DecidableEq, Repr

/-- Whether a read value is observed: all are but the byte of an OPMEM read while BUSY = 1 (rule R267). -/
def ReadValue.observed : ReadValue → Bool
  | .byte _ => true
  | .busyByte _ => false
  | .word _ => true

/-- The observation of a state (rule R267). -/
def State.observe (s : State) : Observation where
  status := s.statusWord
  cmd := s.cmd
  rounds := s.rounds
  regs := s.regs.toList.map fun r => if r.written = allBits then some r.value else none
  returned := s.returned.filter ReadValue.observed
  pulled := s.ridx

/-- MRTEST's machine is between accept and verdict: PHASE is 1, 2 or 3 (rule R37). -/
def Phase.testing : Phase → Bool
  | .idle => false
  | .start => true
  | .decomposed => true
  | .roundInProgress => true
  | .probablyPrime => false
  | .composite => false

/-- The verdict that stands beside each PHASE (rules R37, R44, R197, R212). -/
def Phase.verdict : Phase → Verdict
  | .idle => .none
  | .start => .none
  | .decomposed => .none
  | .roundInProgress => .none
  | .probablyPrime => .probablyPrime
  | .composite => .composite

/-- The temporaries of an MRTEST past Start are those of its candidate: `n` odd, `n ≥ 3`, `d` odd, `n - 1 = d · 2^s`
(rules R198 to R200). -/
structure Flight.Decomposed (f : Flight) : Prop where
  odd : f.opA.toNat % 2 = 1
  atLeast3 : 3 ≤ f.opA.toNat
  pred : f.nm1.toNat = f.opA.toNat - 1
  oddPart : f.d.toNat % 2 = 1
  product : f.d.toNat * 2 ^ f.sh = f.opA.toNat - 1

/-- The invariant: what holds at reset and is kept by every step. -/
structure MachineInv (s : State) : Prop where
  /-- No unwritten register bit is stored as 1 (the model's choice: assumption log 1). -/
  canonical : ∀ k : RegIdx, (s.regs[k]).canonical
  /-- An initialised register bit is a written one (assumption log 16). -/
  initialisedIsWritten : ∀ k : RegIdx, (s.regs[k]).initialisedIsWritten
  /-- DONE and ILL are never both 1 (rules R108, R110). -/
  notDoneAndIll : ¬ (s.status.done = true ∧ s.status.ill = true)
  /-- BUSY and DONE are never both 1 (rule R40), and ILL is 0 while BUSY (rule R80). -/
  busy : s.busy = true → s.status.done = false ∧ s.status.ill = false
  /-- CMD holds the word of the command in flight (rules R48, R50, R108). -/
  latch : ∀ f, s.flight = some f → s.cmd = encode f.instr
  /-- No command draws more than eight words at a time (rules R160, R204). -/
  draws : ∀ f, s.flight = some f → f.draws.length ≤ 8
  /-- PHASE is 1, 2 or 3 exactly while an MRTEST is in flight (rules R37, R196). -/
  testing : s.status.phase.testing = true ↔ ∃ f, s.flight = some f ∧ isMrtest f.instr = true
  /-- VERDICT is the one of PHASE (rules R44, R197, R212). -/
  verdict : s.status.verdict = s.status.phase.verdict
  /-- Past Start, the candidate is decomposed and no round has passed (rules R199, R201). -/
  decomposed : ∀ f, s.flight = some f → s.status.phase = .decomposed → f.Decomposed ∧ f.passed = 0
  /-- In a round, the candidate is decomposed and rounds are still to pass (rules R201, R203). -/
  inRound : ∀ f, s.flight = some f → s.status.phase = .roundInProgress → f.Decomposed ∧ f.passed < f.rs.toNat

end Sys2Proof.Machine
end

