-- ==== Sys2Proof/Certificates/Slice0/Obligations.lean ====
section
/-! DEFINITION. The statements for the provers, from the numbered rules of spec/. `s.quiescent` is BUSY = 0; `exec i s` is the
next step of command `i` at `s`, so that a command is accepted by the first `exec i` from a quiescent state and takes its
further steps by the next ones. -/

open Sys2Proof Sys2Proof.Machine

/-! ## Encoding -/

/-- The assembled words of 95_test_vectors.md (section 2.9) decode to the commands they stand for (rules R104, R112, R113). -/
def Obligations.SpecWordsDecode : Prop :=
  decode 0x01500000 = .ok (.zero 5) ∧ decode 0x02100000 = .ok (.copy 1 0) ∧ decode 0x03034000 = .ok (.cmp 3 4) ∧
  decode 0x04020000 = .ok (.iseven 2) ∧ decode 0x05201000 = .ok (.sub 2 0 1) ∧ decode 0x06220000 = .ok (.shr1 2 2) ∧
  decode 0x07000000 = .ok (.randc 0) ∧ decode 0x08301200 = .ok (.mulmod 3 0 1 2) ∧
  decode 0x09765400 = .ok (.powmod 7 6 5 4) ∧ decode 0x0A000000 = .ok (.mrtest 0)

/-- Every command's word decodes to that command, at every value of every register field (rules R101, R104, R112). -/
def Obligations.DecodeInvertsEncode : Prop :=
  ∀ i : Instr, decode (encode i) = .ok i

/-- A legal word is the word of the command it decodes to: no bit of it is dropped (rules R101, R105, R112). -/
def Obligations.EncodeInvertsDecode : Prop :=
  ∀ (v : BitVec 32) (i : Instr), decode v = .ok i → encode i = v

/-- A word is illegal exactly when its opcode is unassigned, or a used register field is 8 to 15, or a bit that must be 0 is
1 (`wellFormedWord` says the opposite field by field); the all-zero and the all-ones word are illegal (rules R105, R106). -/
def Obligations.IllegalWordsAreTheIllFormedOnes : Prop :=
  (∀ v : BitVec 32, (∀ i, decode v ≠ .ok i) ↔ wellFormedWord v = false) ∧
  (∀ i, decode 0x00000000 ≠ .ok i) ∧ (∀ i, decode 0xFFFFFFFF ≠ .ok i)

/-! ## The step -/

/-- A step runs the decoded command: the host's CsrWrite of a legal word to index 0 at BUSY = 0 is the command's first step;
an engine turn, named in the agenda or because the agenda is empty, is the next step of the command in flight
(rules R83, R108, R109). The step only takes the event off the agenda. -/
def Obligations.StepRunsTheDecodedCommand : Prop :=
  (∀ (s : State) (v : BitVec 32) (i : Instr) (rest : List Event),
    s.agenda = .host (.csrWrite 0 v) :: rest → s.quiescent → decode v = .ok i →
      step s = exec i { s with agenda := rest }) ∧
  (∀ (s : State) (f : Flight) (rest : List Event),
    s.agenda = .engine :: rest → s.flight = some f → step s = exec f.instr { s with agenda := rest }) ∧
  (∀ (s : State) (f : Flight), s.agenda = [] → s.flight = some f → step s = exec f.instr s)

/-- No step ends in a fault or a refusal, at any state: there are no exceptions, and every host transaction at every moment
has a defined effect (rules R230, R96). -/
def Obligations.EveryStepAnswersNext : Prop :=
  (∀ s : State, ∃ t, step s = .next t) ∧ (∀ (i : Instr) (s : State), ∃ t, exec i s = .next t)

/-- An idle engine keeps all its state (rule R242): with nothing on the agenda, which the model takes for an engine turn
(assumption log 6), and at an engine turn that the agenda names, which only leaves the agenda. -/
def Obligations.IdleEngineKeepsItsState : Prop :=
  ∀ s : State, s.quiescent →
    (s.agenda = [] → step s = .next s) ∧
    (∀ rest, s.agenda = .engine :: rest → step s = .next { s with agenda := rest })

/-- Reset state (rules R55, R251): STATUS, CMD, ROUNDS read 0, 0, 0x0000000A; no command is in flight; `done` is 0; every
operand register is unspecified, whatever the use of the free values. -/
def Obligations.ResetStateValues : Prop :=
  State.reset.statusWord = 0x00000000 ∧ State.reset.csrValue 0 = 0x00000000 ∧ State.reset.csrValue 1 = 0x00000000 ∧
  State.reset.csrValue 2 = 0x0000000A ∧ State.reset.busy = false ∧ State.reset.doneOutput = false ∧
  ∀ (t : Nat) (k : RegIdx), { State.reset with freeIdx := t }.view k = Config.freeRegister t k

/-- Reset at any moment, a command in flight or not (rules R251, R252): the command is abandoned; STATUS, CMD, ROUNDS take
their reset values; every register becomes unspecified; the source keeps its words and its position. -/
def Obligations.ResetAbandonsTheCommand : Prop :=
  ∀ (s : State) (rest : List Event), s.agenda = .reset :: rest →
    ∃ t, step s = .next t ∧ t.busy = false ∧ t.statusWord = 0 ∧ t.cmd = 0 ∧ t.rounds = 10 ∧
      (∀ (n : Nat) (k : RegIdx), { t with freeIdx := n }.view k = Config.freeRegister n k) ∧
      t.source = s.source ∧ t.ridx = s.ridx ∧ t.agenda = rest ∧ t.returned = s.returned

/-! ## Accept, complete, illegal words, busy -/

/-- The accept step (rules R34, R108, R197): CMD, BUSY, DONE, ILL; the source registers are latched, and whether
they were initialised (rule R254; the mark is the model's: assumption log 16); MRTEST also samples ROUNDS.R, sets PHASE to 1
and clears VERDICT; nothing else changes. -/
def Obligations.AcceptLatchesTheSources : Prop :=
  ∀ (i : Instr) (s : State), s.quiescent →
    ∃ t f, exec i s = .next t ∧ t.flight = some f ∧ f.instr = i ∧ t.cmd = encode i ∧ t.busy = true ∧
      (∀ k, (sources i)[0]? = some k → f.opA = s.view k) ∧
      (∀ k, (sources i)[1]? = some k → f.opB = s.view k) ∧
      (∀ k, (sources i)[2]? = some k → f.opM = s.view k) ∧
      (isMrtest i = true → f.rs = s.rounds) ∧ f.initialised = s.dutyMet i ∧
      t.status = { s.status with
        done := false, ill := false
        phase := if isMrtest i then .start else s.status.phase
        verdict := if isMrtest i then .none else s.status.verdict } ∧
      t.regs = s.regs ∧ t.rounds = s.rounds ∧ t.source = s.source ∧ t.ridx = s.ridx ∧ t.agenda = s.agenda ∧
      t.returned = s.returned

/-- The illegal-command step (rule R110): ILL 1, DONE 0, nothing else; CMD, registers, other flags, the source keep. -/
def Obligations.IllegalWordSetsIll : Prop :=
  ∀ (s : State) (v : BitVec 32) (e : Illegal) (rest : List Event),
    s.agenda = .host (.csrWrite 0 v) :: rest → s.quiescent → decode v = .error e →
      step s = .next { s with agenda := rest, status := { s.status with ill := true, done := false } }

/-- The busy window (rules R76, R84, R111): while BUSY = 1 a word offered to CMD is dropped, legal or not, OPMEM writes and
CSR writes to every index have no effect, and an OPMEM read returns a free byte, marked as not observed (rule R267), and changes no state of the engine. -/
def Obligations.BusyWindowIgnoresTheHost : Prop :=
  ∀ (s : State) (rest : List Event), s.busy = true →
    (∀ i v, s.agenda = .host (.csrWrite i v) :: rest → step s = .next { s with agenda := rest }) ∧
    (∀ addr b, s.agenda = .host (.memWrite addr b) :: rest → step s = .next { s with agenda := rest }) ∧
    (∀ addr, s.agenda = .host (.memRead addr) :: rest → step s = .next { s with
      agenda := rest, returned := s.returned ++ [.busyByte (Config.freeByte s.freeIdx)], freeIdx := s.freeIdx + 1 })

/-- Only the engine writes results, flags and PHASE (rule R14): a host transaction other than the offer of a command, and a
delivery of the source, leave the flags, CMD, the command in flight and the source's position as they were. -/
def Obligations.OnlyTheEngineWritesFlags : Prop :=
  ∀ (s t : State) (e : Event) (rest : List Event), s.agenda = e :: rest → e ≠ .engine → e ≠ .reset →
    (∀ v, e ≠ .host (.csrWrite 0 v)) → step s = .next t →
      t.status = s.status ∧ t.cmd = s.cmd ∧ t.flight = s.flight ∧ t.ridx = s.ridx

/-- Between accept and complete a command reads no host-visible register: two machines that agree on the command in flight,
on PHASE and on the words of the source take the same step of it, and when it completes they hold the same result
(rules R34, R91). -/
def Obligations.ResultDependsOnLatchesOnly : Prop :=
  ∀ (i : Instr) (s s' : State) (f : Flight), s.flight = some f → s'.flight = some f → f.instr = i →
    s.status.phase = s'.status.phase → s.source = s'.source →
    ∃ t t', exec i s = .next t ∧ exec i s' = .next t' ∧ t.flight = t'.flight ∧ t.source = t'.source ∧
      t.status.phase = t'.status.phase ∧ t.ridx - s.ridx = t'.ridx - s'.ridx ∧
      (t.flight = none →
        (∀ rd, destination i = some rd → t.regs[rd] = t'.regs[rd]) ∧
        (isMrtest i = true → t.status.verdict = t'.status.verdict) ∧
        (∀ ra rb, i = .cmp ra rb → t.status.cmp = t'.status.cmp) ∧
        (∀ ra, i = .iseven ra → t.status.even = t'.status.even) ∧
        (∀ rd ra rb, i = .sub rd ra rb → t.status.borrow = t'.status.borrow))

/-! ## Frames over all commands -/

/-- No command writes an operand register other than its destination, and only in its complete step (rules R32, R34); no
command writes ROUNDS, the agenda or what the host has read. -/
def Obligations.OnlyTheDestinationIsWritten : Prop :=
  ∀ (i : Instr) (s t : State), exec i s = .next t →
    (∀ k : RegIdx, destination i ≠ some k → t.regs[k] = s.regs[k]) ∧
    (t.regs ≠ s.regs → s.busy = true ∧ t.busy = false ∧ t.status.done = true) ∧
    t.rounds = s.rounds ∧ t.agenda = s.agenda ∧ t.returned = s.returned

/-- Each of CMP, EVEN, BORROW, VERDICT and PHASE is written only by its own command, and CMP, EVEN and BORROW only in the
complete step, together with BUSY and DONE (rule R46). -/
def Obligations.FlagsPersist : Prop :=
  ∀ (i : Instr) (s t : State), exec i s = .next t →
    ((∀ ra rb, i ≠ .cmp ra rb) → t.status.cmp = s.status.cmp) ∧
    ((∀ ra, i ≠ .iseven ra) → t.status.even = s.status.even) ∧
    ((∀ rd ra rb, i ≠ .sub rd ra rb) → t.status.borrow = s.status.borrow) ∧
    (isMrtest i = false → t.status.verdict = s.status.verdict ∧ t.status.phase = s.status.phase) ∧
    (t.status.cmp ≠ s.status.cmp ∨ t.status.even ≠ s.status.even ∨ t.status.borrow ≠ s.status.borrow →
      s.busy = true ∧ t.busy = false ∧ t.status.done = true)

/-- Random words are pulled by RANDC and MRTEST only, one at a time, the next one of the source, and are counted; every
other command leaves the source alone (rules R86, R87). -/
def Obligations.OnlyRandcAndMrtestPull : Prop :=
  ∀ (i : Instr) (s t : State), exec i s = .next t →
    (t.source = s.source ∧ t.ridx = s.ridx) ∨
    (((∃ rd, i = .randc rd) ∨ ∃ ra, i = .mrtest ra) ∧ s.busy = true ∧
      ∃ w, s.source = w :: t.source ∧ t.ridx = s.ridx + 1)

/-! ## The primitives: whole runs, accept to complete -/

/-- ZERO (rule R130): R[rd] becomes 0, fully specified; no flag is written; nothing else changes. -/
def Obligations.ZeroClearsItsRegister : Prop :=
  ∀ (rd : RegIdx) (s : State), s.quiescent →
    ∃ a, exec (.zero rd) s = .next a ∧
      exec (.zero rd) a = .next { s.afterCommand (.zero rd) with regs := s.regs.set rd.val (Reg.full 0) rd.isLt }

/-- COPY (rule R131): R[rd] becomes the value R[ra] held at accept; nothing else changes, R[ra] included. Here and below
`Reg.result v (s.dutyMet i)` is the value with every bit written, and initialised if the sources were (rule R254). -/
def Obligations.CopyCopiesTheValue : Prop :=
  ∀ (rd ra : RegIdx) (s : State), s.quiescent →
    ∃ a, exec (.copy rd ra) s = .next a ∧
      exec (.copy rd ra) a =
        .next { s.afterCommand (.copy rd ra) with
          regs := s.regs.set rd.val (Reg.result (s.view ra) (s.dutyMet (.copy rd ra))) rd.isLt }

/-- CMP (rule R132): the sign of the unsigned comparison goes to STATUS.CMP; nothing else changes. -/
def Obligations.CmpComparesUnsigned : Prop :=
  ∀ (ra rb : RegIdx) (s : State), s.quiescent →
    ∃ a, exec (.cmp ra rb) s = .next a ∧
      exec (.cmp ra rb) a = .next { s.afterCommand (.cmp ra rb) with
        status := { s.status with
          done := true, ill := false
          cmp := if (s.view ra).toNat < (s.view rb).toNat then .less
            else if (s.view ra).toNat = (s.view rb).toNat then .equal else .greater } }

/-- ISEVEN (rule R134): EVEN is 1 exactly when the operand is even; nothing else changes. -/
def Obligations.IsevenTestsParity : Prop :=
  ∀ (ra : RegIdx) (s : State), s.quiescent →
    ∃ a, exec (.iseven ra) s = .next a ∧
      exec (.iseven ra) a = .next { s.afterCommand (.iseven ra) with
        status := { s.status with done := true, ill := false, even := decide ((s.view ra).toNat % 2 = 0) } }

/-- SUB (rules R135, R137): R[rd] becomes A - B, wrapped modulo 2^512 when A < B, and BORROW tells which; nothing else
changes. The wrapped value is this spec's decision D16 (rule R137). -/
def Obligations.SubSubtractsWithBorrow : Prop :=
  ∀ (rd ra rb : RegIdx) (s : State), s.quiescent →
    ∃ a d, exec (.sub rd ra rb) s = .next a ∧
      exec (.sub rd ra rb) a = .next { s.afterCommand (.sub rd ra rb) with
        regs := s.regs.set rd.val (Reg.result d (s.dutyMet (.sub rd ra rb))) rd.isLt
        status := { s.status with
          done := true, ill := false, borrow := decide ((s.view ra).toNat < (s.view rb).toNat) } } ∧
      ((s.view rb).toNat ≤ (s.view ra).toNat → d.toNat = (s.view ra).toNat - (s.view rb).toNat) ∧
      ((s.view ra).toNat < (s.view rb).toNat → d.toNat + (s.view rb).toNat = (s.view ra).toNat + 2 ^ 512)

/-- SHR1 (rule R139): R[rd] becomes A div 2; no flag is written; nothing else changes. -/
def Obligations.Shr1HalvesTheValue : Prop :=
  ∀ (rd ra : RegIdx) (s : State), s.quiescent →
    ∃ a d, exec (.shr1 rd ra) s = .next a ∧
      exec (.shr1 rd ra) a =
        .next { s.afterCommand (.shr1 rd ra) with
          regs := s.regs.set rd.val (Reg.result d (s.dutyMet (.shr1 rd ra))) rd.isLt } ∧
      d.toNat = (s.view ra).toNat / 2

/-- CMP is a total order: antisymmetric and transitive, with exactly one outcome for two values (rule R133). -/
def Obligations.CompareIsATotalOrder : Prop :=
  (∀ a b : Word, compareWords a b = .greater ↔ compareWords b a = .less) ∧
  (∀ a b : Word, compareWords a b = .equal ↔ a = b) ∧
  (∀ a b c : Word, compareWords a b = .less → compareWords b c = .less → compareWords a c = .less)

/-- The word scan from the most significant word gives CMP's result (rule R132, word level). -/
def Obligations.WordScanComparesTheValues : Prop :=
  ∀ a b : Word, compareLimbs (limbs a).reverse (limbs b).reverse = compareWords a b

/-- The word-wise subtraction with borrow gives SUB's words and BORROW (rule R136). -/
def Obligations.WordwiseSubtractionAgrees : Prop :=
  ∀ a b : Word,
    subtractLimbs (limbs a) (limbs b) false = (limbs (difference a b), borrowOut a b)

/-- The word-wise shift gives SHR1's words (rule R140). -/
def Obligations.WordwiseShiftAgrees : Prop :=
  ∀ a : Word, shiftRight1Limbs (limbs a) = limbs (shiftRight1 a)

/-- SHR1 applied `k` times gives A div 2^k, for every `k`; of an even value, the low bit of the result is bit 1 of the value
(rule R141). -/
def Obligations.RepeatedShiftDividesByPowersOfTwo : Prop :=
  (∀ (k : Nat) (a : Word), (shiftRight1^[k] a).toNat = a.toNat / 2 ^ k) ∧
  (∀ a : Word, isEven a = true → (shiftRight1 a).getLsbD 0 = a.getLsbD 1)

/-! ## RANDC -/

/-- RANDC (rules R160, R87): the next eight words, the first drawn in word 0, with bits 511 and 0 forced to 1, go to R[rd];
the source has advanced by eight; no flag is written; nothing else changes. Accept, eight pulls, complete: ten steps. -/
def Obligations.RandcBuildsACandidate : Prop :=
  ∀ (rd : RegIdx) (s : State) (ws rest : List Limb), s.quiescent → ws.length = 8 → s.source = ws ++ rest →
    commandRun (.randc rd) 10 s = .next { s.afterCommand (.randc rd) with
      regs := s.regs.set rd.val (Reg.full (BitVec.ofNat 512 (limbsValue ws) ||| BitVec.twoPow 512 511 ||| 1)) rd.isLt
      source := rest
      ridx := s.ridx + 8 }

/-- RANDC with its eight words drawn completes, whatever they are, with an odd value of full width (rules R109, R161). -/
def Obligations.RandcCompletesOddAndFullWidth : Prop :=
  ∀ (rd : RegIdx) (s : State) (f : Flight), s.flight = some f → f.instr = .randc rd → f.draws.length = 8 →
    ∃ c, exec (.randc rd) s = .next { s with
        regs := s.regs.set rd.val (Reg.full c) rd.isLt, status := { s.status with done := true }, flight := none } ∧
      2 ^ 511 ≤ c.toNat ∧ c.toNat % 2 = 1 ∧ c.toNat - 2 ≥ 2 ^ 511 - 1

/-- A pull of RANDC, or of a round of MRTEST, takes the next delivered word; where none is there the engine waits: it stays
BUSY and nothing changes (rules R87, R88, R204). A delivery, at any BUSY, puts its word after those delivered before and
changes nothing else. -/
def Obligations.PullWaitsForTheSource : Prop :=
  (∀ (i : Instr) (s : State) (f : Flight), s.flight = some f → f.instr = i → f.draws.length < 8 →
    ((∃ rd, i = .randc rd) ∨ ((∃ ra, i = .mrtest ra) ∧ s.status.phase = .roundInProgress)) →
      (s.source = [] → exec i s = .next s) ∧
      (∀ w ws, s.source = w :: ws → exec i s =
        .next { s with source := ws, ridx := s.ridx + 1, flight := some { f with draws := f.draws ++ [w] } })) ∧
  (∀ (s : State) (w : Limb) (rest : List Event), s.agenda = .deliver w :: rest →
    step s = .next { s with agenda := rest, source := s.source ++ [w] })

/-! ## MULMOD and POWMOD -/

/-- MULMOD with a modulus that is not 0 (rule R170): R[rd] becomes the least remainder of the exact product; no flag is
written; nothing else changes. -/
def Obligations.MulmodReducesTheProduct : Prop :=
  ∀ (rd ra rb rm : RegIdx) (s : State), s.quiescent → s.view rm ≠ 0 →
    ∃ a r, exec (.mulmod rd ra rb rm) s = .next a ∧
      exec (.mulmod rd ra rb rm) a =
        .next { s.afterCommand (.mulmod rd ra rb rm) with
          regs := s.regs.set rd.val (Reg.result r (s.dutyMet (.mulmod rd ra rb rm))) rd.isLt } ∧
      r.toNat = (s.view ra).toNat * (s.view rb).toNat % (s.view rm).toNat

/-- POWMOD with a modulus that is not 0 (rules R185 to R188): R[rd] becomes 1 for exponent 0, else the least remainder of the
power; no flag is written; nothing else changes. Sources never written are read as free values, once each, and the result is
then fixed (assumption log 2, 3). -/
def Obligations.PowmodComputesThePower : Prop :=
  ∀ (rd ra rb rm : RegIdx) (s : State), s.quiescent → s.view rm ≠ 0 →
    ∃ a r, exec (.powmod rd ra rb rm) s = .next a ∧
      exec (.powmod rd ra rb rm) a =
        .next { s.afterCommand (.powmod rd ra rb rm) with
          regs := s.regs.set rd.val (Reg.result r (s.dutyMet (.powmod rd ra rb rm))) rd.isLt } ∧
      (s.view rb = 0 → r = 1) ∧
      (s.view rb ≠ 0 → r.toNat = (s.view ra).toNat ^ (s.view rb).toNat % (s.view rm).toNat)

/-- MULMOD and POWMOD with modulus 0 never complete (rules R174, R188): accepted, they leave BUSY = 1, DONE = 0 and every
register as it was, for ever. -/
def Obligations.ZeroModulusNeverCompletes : Prop :=
  ∀ (i : Instr) (rd ra rb rm : RegIdx) (s : State), i = .mulmod rd ra rb rm ∨ i = .powmod rd ra rb rm →
    s.quiescent → s.view rm = 0 →
      ∃ a, exec i s = .next a ∧ a.busy = true ∧ a.status.done = false ∧ a.regs = s.regs ∧
        ∀ k, commandRun i (k + 1) s = .next a

/-- The schoolbook product is the exact product (rule R172). -/
def Obligations.SchoolbookProductIsExact : Prop :=
  ∀ a b : Word, (schoolbookProduct a b).length = 16 ∧ limbsValue (schoolbookProduct a b) = a.toNat * b.toNat

/-- Repeated subtraction ends after exactly `p div m` subtractions with the least remainder, and with modulus 0 never
(rules R173, R174). -/
def Obligations.RepeatedSubtractionReduces : Prop :=
  (∀ p m : Nat, 0 < m → reduceBySubtraction (p / m) p m = some (p % m) ∧
    ∀ k, k < p / m → reduceBySubtraction k p m = none) ∧
  (∀ k p : Nat, reduceBySubtraction k p 0 = none)

/-- The laws of `mulmod` for a modulus that is not 0 (rules R171, R176). -/
def Obligations.MulmodLaws : Prop :=
  ∀ a b c m : Word, m ≠ 0 →
    mulmod a b m = mulmod b a m ∧ mulmod a 0 m = some 0 ∧ mulmod a 1 m = some (a % m) ∧
    mulmod a b m = mulmod (a % m) (b % m) m ∧
    (mulmod a b m).bind (fun x => mulmod x c m) = (mulmod b c m).bind (fun x => mulmod a x m)

/-- Square-and-multiply equals the slow reference, every modulus but 0, every exponent (rule R189). -/
def Obligations.PowmodEqualsTheSlowReference : Prop :=
  ∀ a e m : Word, m ≠ 0 → powmod a e m = slowPower a m e.toNat

/-! ## MRTEST -/

/-- Start (rules R198, R212): an even candidate, 0 and 2 included, or 1 is Composite at once, with no word pulled. -/
def Obligations.MrtestRejectsEvenAndOne : Prop :=
  ∀ (ra : RegIdx) (s : State) (f : Flight), s.flight = some f → f.instr = .mrtest ra → s.status.phase = .start →
    f.opA.toNat % 2 = 0 ∨ f.opA.toNat = 1 →
      exec (.mrtest ra) s = .next { s with
        flight := none
        status := { s.status with done := true, verdict := .composite, phase := .composite } }

/-- Decompose (rules R199, R200): an odd candidate of at least 3 gets `n - 1 = d · 2^s`, `d` odd, and PHASE 2. -/
def Obligations.MrtestDecomposesOddCandidates : Prop :=
  ∀ (ra : RegIdx) (s : State) (f : Flight), s.flight = some f → f.instr = .mrtest ra → s.status.phase = .start →
    f.opA.toNat % 2 = 1 → 3 ≤ f.opA.toNat →
      ∃ (nm1 d : Word) (sh : Nat),
        exec (.mrtest ra) s = .next { s with
          status := { s.status with phase := .decomposed }
          flight := some { f with nm1 := nm1, d := d, sh := sh, passed := 0 } } ∧
        nm1.toNat = f.opA.toNat - 1 ∧ d.toNat * 2 ^ sh = f.opA.toNat - 1 ∧ d.toNat % 2 = 1 ∧
        1 ≤ sh ∧ sh ≤ 511 ∧ 1 ≤ d.toNat ∧ d.toNat ≤ (f.opA.toNat - 1) / 2

/-- Round control at PHASE 2 (rules R201 to R203, R212): ProbablyPrime when no round is asked for, else the first round
begins, with nothing drawn. -/
def Obligations.MrtestBeginsRounds : Prop :=
  ∀ (ra : RegIdx) (s : State) (f : Flight), s.flight = some f → f.instr = .mrtest ra →
    s.status.phase = .decomposed → f.passed = 0 →
      (f.rs = 0 → exec (.mrtest ra) s = .next { s with
        flight := none
        status := { s.status with done := true, verdict := .probablyPrime, phase := .probablyPrime } }) ∧
      (f.rs ≠ 0 → exec (.mrtest ra) s = .next { s with
        status := { s.status with phase := .roundInProgress }
        flight := some { f with draws := [] } })

/-- A round, its eight words drawn (rules R206 to R212). With `a = (r mod (n - 2)) + 2` and `x = a^d mod n` it passes when `x`
is 1 or `n - 1`, or one of the next `s - 1` squarings gives `n - 1`. It fails: Composite at once. It passes: the last round
gives ProbablyPrime, another one begins the next round. -/
def Obligations.MrtestDecidesARound : Prop :=
  ∀ (ra : RegIdx) (s : State) (f : Flight), s.flight = some f → f.instr = .mrtest ra →
    s.status.phase = .roundInProgress → f.Decomposed → f.draws.length = 8 →
    ∀ n a x : Nat, n = f.opA.toNat → a = limbsValue f.draws % (n - 2) + 2 → x = a ^ f.d.toNat % n →
      (x = 1 ∨ x = n - 1 ∨ (∃ q, 1 ≤ q ∧ q ≤ f.sh - 1 ∧ x ^ 2 ^ q % n = n - 1) →
        (f.passed + 1 = f.rs.toNat → exec (.mrtest ra) s = .next { s with
          flight := none
          status := { s.status with done := true, verdict := .probablyPrime, phase := .probablyPrime } }) ∧
        (f.passed + 1 ≠ f.rs.toNat → exec (.mrtest ra) s = .next { s with
          flight := some { f with draws := [], passed := f.passed + 1 } })) ∧
      (¬ (x = 1 ∨ x = n - 1 ∨ ∃ q, 1 ≤ q ∧ q ≤ f.sh - 1 ∧ x ^ 2 ^ q % n = n - 1) →
        exec (.mrtest ra) s = .next { s with
          flight := none
          status := { s.status with done := true, verdict := .composite, phase := .composite } })

/-- The witness is in `[2, n - 1]` and its computation never overflows (rule R206). -/
def Obligations.WitnessIsInRange : Prop :=
  ∀ (f : Flight) (r : Word), f.Decomposed →
    ∃ a, witness r f.nm1 = some a ∧ a.toNat = r.toNat % (f.opA.toNat - 2) + 2 ∧ 2 ≤ a.toNat ∧ a.toNat ≤ f.opA.toNat - 1

/-- The witness `n - 1` passes every round (rule R214 (a)). -/
def Obligations.MinusOnePassesEveryRound : Prop :=
  ∀ f : Flight, f.Decomposed → limbsValue f.draws < 2 ^ 512 →
    limbsValue f.draws % (f.opA.toNat - 2) = f.opA.toNat - 3 → roundOf f = some true

/-- The state machine and the one function of rule R219 give the same end state, and the words pulled are the function's
(rules R196, R217, R219): whatever the candidate, the round count and the words, if the source holds the words the function
asks for. The source as a list is the model's form (assumption log 7). -/
def Obligations.MrtestFollowsItsFunction : Prop :=
  ∀ (ra : RegIdx) (s : State) (prime : Bool) (pulled : Nat), s.quiescent →
    millerRabin (s.view ra).toNat s.rounds.toNat s.source = some (prime, pulled) →
      ∃ k, commandRun (.mrtest ra) k s = .next { s.afterCommand (.mrtest ra) with
        status := { s.status with
          done := true, ill := false
          verdict := if prime then .probablyPrime else .composite
          phase := if prime then .probablyPrime else .composite }
        source := s.source.drop pulled
        ridx := s.ridx + pulled }

/-- A prime candidate of at least 3 gets ProbablyPrime for every round count and every draw, and pulls `8 · Rs` words
(rules R214 (b), R217). The spec marks R214 (b) "from general knowledge, not in source". -/
def Obligations.MrtestPassesEveryPrime : Prop :=
  ∀ (ra : RegIdx) (s : State), s.quiescent → (s.view ra).toNat.Prime → 3 ≤ (s.view ra).toNat →
    8 * s.rounds.toNat ≤ s.source.length →
      ∃ k t, commandRun (.mrtest ra) (k + 2) s = .next t ∧ t.quiescent ∧ t.status.verdict = .probablyPrime ∧
        t.status.phase = .probablyPrime ∧ t.ridx = s.ridx + 8 * s.rounds.toNat

/-- MRTEST writes no operand register and no flag but VERDICT and PHASE, besides BUSY, DONE and ILL (rule R215). -/
def Obligations.MrtestKeepsRegistersAndFlags : Prop :=
  ∀ (ra : RegIdx) (s t : State), exec (.mrtest ra) s = .next t →
    t.regs = s.regs ∧ t.rounds = s.rounds ∧ t.status.cmp = s.status.cmp ∧ t.status.even = s.status.even ∧
    t.status.borrow = s.status.borrow

/-- PHASE never goes backwards while a test is in flight: 1, 2, 3, then 4 or 5 (rules R196, R216). -/
def Obligations.PhaseNeverGoesBackwards : Prop :=
  ∀ (s t : State) (rest : List Event), MachineInv s → s.status.phase.testing = true → s.agenda = .engine :: rest →
    step s = .next t →
      s.status.phase.code.toNat ≤ t.status.phase.code.toNat ∧
      (t.busy = true → t.status.phase.testing = true ∧ t.status.verdict = .none ∧
        t.status.phase.code.toNat ≤ s.status.phase.code.toNat + 1) ∧
      (t.busy = false → t.status.phase = .probablyPrime ∨ t.status.phase = .composite)

/-- Termination (rule R266): every command completes; RANDC if the source has eight words for it, MRTEST if it has eight
words for each of the rounds asked for, MULMOD and POWMOD if the modulus is not 0, the others always. -/
def Obligations.EveryCommandCompletes : Prop :=
  ∀ (i : Instr) (s : State), s.quiescent → ((∃ rd, i = .randc rd) → 8 ≤ s.source.length) →
    (isMrtest i = true → 8 * s.rounds.toNat ≤ s.source.length) →
    (∀ rd ra rb rm, i = .mulmod rd ra rb rm ∨ i = .powmod rd ra rb rm → s.view rm ≠ 0) →
      ∃ k t, commandRun i (k + 2) s = .next t ∧ t.quiescent ∧ t.status.done = true ∧ t.status.ill = false ∧
        t.cmd = encode i

/-! ## The host port -/

/-- MemRead at BUSY = 0 (rules R72 to R74): the byte at offset `o` of register `k`, most significant byte first, goes to the
host; no state of the engine changes. -/
def Obligations.MemReadReturnsTheByte : Prop :=
  ∀ (s : State) (addr : BitVec 9) (rest : List Event), s.agenda = .host (.memRead addr) :: rest → s.quiescent →
    ∃ b : Byte, step s =
        .next { s with agenda := rest, returned := s.returned ++ [.byte b], freeIdx := s.freeIdx + 1 } ∧
      b.toNat = (s.view ⟨addr.toNat / 64, by omega⟩).toNat / 2 ^ (8 * (63 - addr.toNat % 64)) % 2 ^ 8

/-- MemWrite at BUSY = 0 (rules R33, R75): byte `o` of register `k` reads as written, every other bit of every register and
all other state is unchanged; those eight bits now count as written and as initialised (rules R35, R254; the marks are the
model's: assumption log 1, 16). -/
def Obligations.MemWriteChangesOneByte : Prop :=
  ∀ (s : State) (addr : BitVec 9) (b : Byte) (rest : List Event),
    s.agenda = .host (.memWrite addr b) :: rest → s.quiescent →
    ∃ regs, step s = .next { s with agenda := rest, regs := regs } ∧
      ∀ (k : RegIdx) (j : Nat), j < 512 →
        ((regs[k]).value.getLsbD j, (regs[k]).written.getLsbD j, (regs[k]).initialised.getLsbD j) =
          if k.val = addr.toNat / 64 ∧ j / 8 = 63 - addr.toNat % 64 then (b.getLsbD (j % 8), true, true)
          else ((s.regs[k]).value.getLsbD j, (s.regs[k]).written.getLsbD j, (s.regs[k]).initialised.getLsbD j)

/-- Round trip (rule R77), at BUSY = 0: MemWrite of 64 bytes to offsets 0 to 63 of a register makes it their big-endian value
(rule R73), and MemRead of the same offsets, with nothing between, gives those bytes; MemRead of the 64 bytes of a fully
written register and MemWrite of what they gave leaves its value, and every other register, as it was. -/
def Obligations.SixtyFourByteWritesRoundTrip : Prop :=
  (∀ (s : State) (k : RegIdx) (bytes : List Byte) (rest : List Event), bytes.length = 64 → s.quiescent →
    s.agenda = writeScript k bytes ++ rdvScript k ++ rest →
      runSteps 64 s = .next { s with
        agenda := rdvScript k ++ rest
        regs := s.regs.set k.val (Reg.full (BitVec.ofNat 512 (bytesValue bytes))) k.isLt } ∧
      runSteps 128 s = .next { s with
        agenda := rest
        regs := s.regs.set k.val (Reg.full (BitVec.ofNat 512 (bytesValue bytes))) k.isLt
        returned := s.returned ++ bytes.map ReadValue.byte
        freeIdx := s.freeIdx + 64 }) ∧
  (∀ (s : State) (k : RegIdx) (rest : List Event), s.quiescent → (s.regs[k]).written = allBits →
    s.agenda = rdvScript k ++ rest →
      ∃ bytes : List Byte, bytes.length = 64 ∧
        runSteps 64 s = .next { s with
          agenda := rest, returned := s.returned ++ bytes.map ReadValue.byte, freeIdx := s.freeIdx + 64 } ∧
        ∀ t : State, t.quiescent → t.regs = s.regs → t.agenda = writeScript k bytes ++ rest →
          runSteps 64 t = .next { t with
            agenda := rest, regs := s.regs.set k.val (Reg.full (s.regs[k]).value) k.isLt })

/-- The host-script pseudo-instructions (rule R115). `LDI Rk, value` at BUSY = 0 leaves the register at the value, fully
specified, and all else unchanged. `WAIT` polls STATUS, and goes on only when DONE or ILL is 1; until then a gap follows, and
the next poll (the gaps are the model's form: assumption log 17). `LDS Rk, value` at BUSY = 0 leaves the register at the value,
fully specified, whatever the gaps of its `WAIT`; besides, the polls have been read, and CMD, DONE, ILL are as after ZERO. -/
def Obligations.LdiLoadsTheValue : Prop :=
  (∀ (s : State) (k : RegIdx) (v : Word) (rest : List Event), s.quiescent → s.agenda = ldiScript k v ++ rest →
    runSteps 64 s = .next { s with agenda := rest, regs := s.regs.set k.val (Reg.full v) k.isLt }) ∧
  (∀ (s : State) (gaps : List Gap) (rest : List Event), s.agenda = .wait gaps :: rest →
    (s.status.done = true ∨ s.status.ill = true →
      step s = .next { s with agenda := rest, returned := s.returned ++ [.word s.statusWord] }) ∧
    (s.status.done = false → s.status.ill = false →
      (gaps = [] → step s = .next { s with
        agenda := .engine :: .wait [] :: rest, returned := s.returned ++ [.word s.statusWord] }) ∧
      (∀ g later, gaps = g :: later → step s = .next { s with
        agenda := g.delivered.map Event.deliver ++ List.replicate g.turns Event.engine ++ .wait later :: rest
        returned := s.returned ++ [.word s.statusWord] }))) ∧
  (∀ (s : State) (k : RegIdx) (v : Limb) (gaps : List Gap) (rest : List Event), s.quiescent →
    s.agenda = ldsScript k v gaps ++ rest →
      ∃ (n : Nat) (polls : List (BitVec 32)) (words : List Limb),
        runSteps n s = .next { s.afterCommand (.zero k) with
          agenda := rest
          regs := s.regs.set k.val (Reg.full (v.setWidth 512)) k.isLt
          returned := s.returned ++ polls.map ReadValue.word
          source := s.source ++ words })

/-- A written bit of a register reads as stored; an unwritten bit is free at every read (rule R35). -/
def Obligations.UnwrittenBitsAreFree : Prop :=
  ∀ (s : State) (k : RegIdx) (j : Nat), j < 512 →
    (s.view k).getLsbD j =
      if (s.regs[k]).written.getLsbD j then (s.regs[k]).value.getLsbD j
      else (Config.freeRegister s.freeIdx k).getLsbD j

/-- CsrRead (rule R80): CMD, STATUS, ROUNDS, or 0 for indices 3 to 15, at any BUSY; no state of the engine changes. -/
def Obligations.CsrReadReturnsTheRegister : Prop :=
  ∀ (s : State) (i : Fin 16) (rest : List Event), s.agenda = .host (.csrRead i) :: rest →
    step s = .next { s with
      agenda := rest
      returned := s.returned ++ [.word (if i = 0 then s.cmd else if i = 1 then s.statusWord
        else if i = 2 then s.rounds.setWidth 32 else 0)] }

/-- CsrWrite to any index but 0 at BUSY = 0 (rules R47, R49, R81): ROUNDS takes the low 16 bits; STATUS and the reserved
indices have no effect. -/
def Obligations.CsrWriteSetsRoundsOnly : Prop :=
  ∀ (s : State) (i : Fin 16) (v : BitVec 32) (rest : List Event), s.agenda = .host (.csrWrite i v) :: rest →
    s.quiescent → i ≠ 0 →
      step s = .next { s with agenda := rest, rounds := if i = 2 then v.extractLsb' 0 16 else s.rounds }

/-- The layout of STATUS (rule R38), with the codes of CMP, VERDICT and PHASE (rules R37, R41, R44); the `done` output equals
STATUS.DONE at every instant (rule R233). -/
def Obligations.StatusWordLayout : Prop :=
  ∀ s : State,
    s.statusWord.extractLsb' 0 1 = BitVec.ofBool s.busy ∧ s.statusWord.extractLsb' 1 1 = BitVec.ofBool s.status.done ∧
    s.statusWord.extractLsb' 2 2 = s.status.cmp.code ∧ s.statusWord.extractLsb' 4 1 = BitVec.ofBool s.status.even ∧
    s.statusWord.extractLsb' 5 1 = BitVec.ofBool s.status.borrow ∧ s.statusWord.extractLsb' 6 2 = s.status.verdict.code ∧
    s.statusWord.extractLsb' 8 3 = s.status.phase.code ∧ s.statusWord.extractLsb' 11 1 = BitVec.ofBool s.status.ill ∧
    s.statusWord.extractLsb' 12 20 = 0 ∧ BitVec.ofBool s.doneOutput = s.statusWord.extractLsb' 1 1 ∧
    (CmpResult.equal.code = 0b00 ∧ CmpResult.greater.code = 0b01 ∧ CmpResult.less.code = 0b11) ∧
    (Verdict.none.code = 0b00 ∧ Verdict.probablyPrime.code = 0b01 ∧ Verdict.composite.code = 0b10) ∧
    (Phase.idle.code = 0 ∧ Phase.start.code = 1 ∧ Phase.decomposed.code = 2 ∧ Phase.roundInProgress.code = 3 ∧
      Phase.probablyPrime.code = 4 ∧ Phase.composite.code = 5)

/-! ## The invariant -/

/-- The invariant holds at reset (rules R55, R251). Its clauses about the stored bits of unwritten registers and about the marks
of written and initialised bits are the model's choices (assumption log 1, 16). -/
def Obligations.InvariantHoldsAtReset : Prop := MachineInv State.reset

/-- Every step keeps the invariant. The model's own choices, with no rule behind them: an unwritten register bit is stored as 0
(assumption log 1), an initialised bit is marked written (assumption log 16). By the rules: BUSY and DONE never both 1, ILL 0 while BUSY, CMD the word of the
command in flight, PHASE 1 to 3 exactly while an MRTEST is in flight, VERDICT that of PHASE, and the candidate of a test past
Start decomposed (rules R37, R39, R40, R44, R48, R108 to R110, R196 to R203, R212). -/
def Obligations.EveryStepKeepsTheInvariant : Prop :=
  ∀ s t : State, MachineInv s → step s = .next t → MachineInv t

/-- What STATUS never shows, under the invariant (rules R37, R38, R40, R41, R44): BUSY and DONE together, CMP `10`, VERDICT
`11`, PHASE 6 or 7, a reserved bit. -/
def Obligations.StatusNeverShowsReservedCodes : Prop :=
  ∀ s : State, MachineInv s →
    ¬ (s.statusWord.getLsbD 0 = true ∧ s.statusWord.getLsbD 1 = true) ∧ s.statusWord.extractLsb' 2 2 ≠ 0b10 ∧
    s.statusWord.extractLsb' 6 2 ≠ 0b11 ∧ (s.statusWord.extractLsb' 8 3).toNat ≤ 5 ∧ s.statusWord.extractLsb' 12 20 = 0
end

