-- ==== Sys2Proof/Laws/Arith.lean ====
section
/-! SUPPORT. What the arithmetic functions can do, said once. -/

namespace Sys2Proof.Machine

@[simp] theorem mulmod_zero_modulus (a b : Word) : mulmod a b 0#512 = none := by simp [mulmod]

/-- A modular product with a modulus that is not 0 has a value, the least remainder (rule R170). -/
theorem mulmod_value {a b m : Word} (h : m ≠ 0) :
    ∃ r, mulmod a b m = some r ∧ r.toNat = a.toNat * b.toNat % m.toNat := by
  have hm : m.toNat ≠ 0 := fun e => h (by apply BitVec.eq_of_toNat_eq; simp only [e, BitVec.ofNat_eq_ofNat, BitVec.toNat_ofNat, Nat.zero_mod])
  have hlt : a.toNat * b.toNat % m.toNat < m.toNat := Nat.mod_lt _ (Nat.pos_of_ne_zero hm)
  refine ⟨_, if_neg h, ?_⟩
  rw [BitVec.toNat_ofNat]
  exact Nat.mod_eq_of_lt (hlt.trans m.isLt)

/-- The values of words drawn in order fit in 64 bits each (rule R16). -/
theorem limbsValue_lt (ws : List Limb) : limbsValue ws < 2 ^ (64 * ws.length) := by
  induction ws with
  | nil => simp [limbsValue]
  | cons w ws ih =>
    have hw : w.toNat < 2 ^ 64 := w.isLt
    rw [List.length_cons, Nat.mul_succ, Nat.pow_add, limbsValue, Nat.mul_comm (2 ^ (64 * ws.length))]
    nlinarith [ih, hw, Nat.pow_pos (n := 64) (show 0 < 2 by decide)]

/-- The shift loop of rule R199 ends with an odd value after finitely many halvings, for a value that is not 0. -/
theorem decomposeFrom_spec (fuel : Nat) (t : Word) (s : Nat) (h0 : 0 < t.toNat) (hf : t.toNat < 2 ^ fuel) :
    (decomposeFrom fuel t s).1.toNat % 2 = 1 ∧ s ≤ (decomposeFrom fuel t s).2 ∧
      (decomposeFrom fuel t s).1.toNat * 2 ^ ((decomposeFrom fuel t s).2 - s) = t.toNat := by
  induction fuel generalizing t s with
  | zero => simp at hf; omega
  | succ fuel ih =>
    have hbit : t.getLsbD 0 = decide (t.toNat % 2 = 1) := by simp only [BitVec.getLsbD, Nat.testBit_zero]
    unfold decomposeFrom
    by_cases h : t.toNat % 2 = 1
    · simp [hbit, h]
    · have hs : (t >>> 1).toNat = t.toNat / 2 := by
        rw [BitVec.toNat_ushiftRight, Nat.shiftRight_succ, Nat.shiftRight_zero]
      have hpow : (2 : Nat) ^ (fuel + 1) = 2 * 2 ^ fuel := by rw [Nat.pow_succ, Nat.mul_comm]
      obtain ⟨h1, h2, h3⟩ := ih (t >>> 1) (s + 1) (by omega) (by omega)
      rw [hbit, decide_eq_false h, if_neg (by decide)]
      refine ⟨h1, by omega, ?_⟩
      obtain ⟨c, hc⟩ : ∃ c, (decomposeFrom fuel (t >>> 1) (s + 1)).2 = s + 1 + c := ⟨_, (Nat.add_sub_of_le h2).symm⟩
      rw [hc] at h3 ⊢
      rw [show s + 1 + c - (s + 1) = c by omega] at h3
      rw [show s + 1 + c - s = c + 1 by omega, Nat.pow_succ, ← Nat.mul_assoc, h3]
      omega

/-- The decomposition of a value that is not 0 (rules R199, R200). -/
theorem decompose_spec (t : Word) (h0 : 0 < t.toNat) :
    (decompose t).1.toNat % 2 = 1 ∧ (decompose t).1.toNat * 2 ^ (decompose t).2 = t.toNat := by
  obtain ⟨h1, _, h3⟩ := decomposeFrom_spec Config.width t 0 h0 (lt_of_lt_of_eq t.isLt (by rw [show Config.width = 512 from rfl]))
  exact ⟨h1, h3⟩

end Sys2Proof.Machine
end

