-- ==== Sys2Proof/Laws/Encoding.lean ====
section
/-! SUPPORT. The fields of an encoded command word, said once (rule R101). -/

namespace Sys2Proof

/-- The value of a command word, field by field (rule R101). -/
theorem commandWord_toNat (op : BitVec 8) (d a b m : RegIdx) :
    (commandWord op d a b m).toNat =
      op.toNat * 2 ^ 24 + d.val * 2 ^ 20 + a.val * 2 ^ 16 + b.val * 2 ^ 12 + m.val * 2 ^ 8 := by
  have append_value : ∀ x y n : Nat, y < 2 ^ n → x * 2 ^ n ||| y = x * 2 ^ n + y := by
    intro x y n h
    rw [Nat.mul_comm]
    exact (Nat.two_pow_add_eq_or_of_lt h x).symm
  simp only [commandWord, BitVec.toNat_append, BitVec.toNat_ofFin, BitVec.toNat_ofNat, Nat.zero_mod, Nat.or_zero,
    Nat.shiftLeft_eq]
  rw [append_value _ _ 3 d.isLt, append_value _ _ 3 a.isLt, append_value _ _ 3 b.isLt, append_value _ _ 3 m.isLt]
  omega

/-- The bits from `lo` on of a command word, as a number. -/
theorem commandWord_field (op : BitVec 8) (d a b m : RegIdx) (lo n : Nat) :
    ((commandWord op d a b m).extractLsb' lo n).toNat =
      (op.toNat * 2 ^ 24 + d.val * 2 ^ 20 + a.val * 2 ^ 16 + b.val * 2 ^ 12 + m.val * 2 ^ 8) / 2 ^ lo % 2 ^ n := by
  rw [BitVec.extractLsb'_toNat, commandWord_toNat, Nat.shiftRight_eq_div_pow]

theorem commandWord_op (op : BitVec 8) (d a b m : RegIdx) : (commandWord op d a b m).extractLsb' 24 8 = op := by
  apply BitVec.eq_of_toNat_eq
  rw [commandWord_field]
  omega

theorem commandWord_fieldD (op : BitVec 8) (d a b m : RegIdx) :
    ((commandWord op d a b m).extractLsb' 20 4).toNat = d.val := by
  rw [commandWord_field]; omega

theorem commandWord_fieldA (op : BitVec 8) (d a b m : RegIdx) :
    ((commandWord op d a b m).extractLsb' 16 4).toNat = a.val := by
  rw [commandWord_field]; omega

theorem commandWord_fieldB (op : BitVec 8) (d a b m : RegIdx) :
    ((commandWord op d a b m).extractLsb' 12 4).toNat = b.val := by
  rw [commandWord_field]; omega

theorem commandWord_fieldM (op : BitVec 8) (d a b m : RegIdx) :
    ((commandWord op d a b m).extractLsb' 8 4).toNat = m.val := by
  rw [commandWord_field]; omega

theorem commandWord_fieldZ (op : BitVec 8) (d a b m : RegIdx) :
    ((commandWord op d a b m).extractLsb' 0 8).toNat = 0 := by
  rw [commandWord_field]; omega

/-- A used register field with a register's index is legal; an unused field of 0 is legal (rules R102, R105). -/
theorem registerFieldOk_of_toNat (used : Bool) (field : BitVec 4) (k : RegIdx) (h : field.toNat = k.val)
    (hu : used = false → k = 0) : registerFieldOk used field = true := by
  cases used with
  | true =>
    simp only [registerFieldOk, if_true, decide_eq_true_eq, h]
    exact k.isLt
  | false =>
    simp only [registerFieldOk, Bool.false_eq_true, if_false, decide_eq_true_eq]
    apply BitVec.eq_of_toNat_eq
    rw [h, hu rfl]
    rfl

/-- A command word whose unused register fields are 0 is well formed (rule R105). -/
theorem wellFormedWord_commandWord (op : BitVec 8) (d a b m : RegIdx) (f : Format) (hf : formatOfOpcode op = some f)
    (hd : f.usesD = false → d = 0) (ha : f.usesA = false → a = 0) (hb : f.usesB = false → b = 0)
    (hm : f.usesM = false → m = 0) : wellFormedWord (commandWord op d a b m) = true := by
  have hz : (commandWord op d a b m).extractLsb' 0 8 = 0 := BitVec.eq_of_toNat_eq (commandWord_fieldZ op d a b m)
  simp only [wellFormedWord, commandWord_op, hf, hz, decide_true, Bool.and_true,
    registerFieldOk_of_toNat _ _ d (commandWord_fieldD op d a b m) hd,
    registerFieldOk_of_toNat _ _ a (commandWord_fieldA op d a b m) ha,
    registerFieldOk_of_toNat _ _ b (commandWord_fieldB op d a b m) hb,
    registerFieldOk_of_toNat _ _ m (commandWord_fieldM op d a b m) hm]

end Sys2Proof
end

