-- ==== Sys2Proof/Laws/State.lean ====
section
/-! SUPPORT. One lemma per field per update of State, true by rfl: no later proof unfolds a record update. -/

namespace Sys2Proof.Machine

variable (s : State)

@[simp] theorem State.setReg_regs (k : RegIdx) (v : Word) (ok : Bool) :
    (s.setReg k v ok).regs = s.regs.set k.val (Reg.result v ok) k.isLt := rfl
@[simp] theorem State.setReg_status (k : RegIdx) (v : Word) (ok : Bool) : (s.setReg k v ok).status = s.status := rfl
@[simp] theorem State.setReg_cmd (k : RegIdx) (v : Word) (ok : Bool) : (s.setReg k v ok).cmd = s.cmd := rfl
@[simp] theorem State.setReg_rounds (k : RegIdx) (v : Word) (ok : Bool) : (s.setReg k v ok).rounds = s.rounds := rfl
@[simp] theorem State.setReg_flight (k : RegIdx) (v : Word) (ok : Bool) : (s.setReg k v ok).flight = s.flight := rfl
@[simp] theorem State.setReg_source (k : RegIdx) (v : Word) (ok : Bool) : (s.setReg k v ok).source = s.source := rfl
@[simp] theorem State.setReg_ridx (k : RegIdx) (v : Word) (ok : Bool) : (s.setReg k v ok).ridx = s.ridx := rfl
@[simp] theorem State.setReg_agenda (k : RegIdx) (v : Word) (ok : Bool) : (s.setReg k v ok).agenda = s.agenda := rfl
@[simp] theorem State.setReg_returned (k : RegIdx) (v : Word) (ok : Bool) : (s.setReg k v ok).returned = s.returned := rfl
@[simp] theorem State.setReg_freeIdx (k : RegIdx) (v : Word) (ok : Bool) : (s.setReg k v ok).freeIdx = s.freeIdx := rfl

@[simp] theorem State.readByte_regs (addr : BitVec 9) : (s.readByte addr).regs = s.regs := rfl
@[simp] theorem State.readByte_status (addr : BitVec 9) : (s.readByte addr).status = s.status := rfl
@[simp] theorem State.readByte_cmd (addr : BitVec 9) : (s.readByte addr).cmd = s.cmd := rfl
@[simp] theorem State.readByte_rounds (addr : BitVec 9) : (s.readByte addr).rounds = s.rounds := rfl
@[simp] theorem State.readByte_flight (addr : BitVec 9) : (s.readByte addr).flight = s.flight := rfl
@[simp] theorem State.readByte_source (addr : BitVec 9) : (s.readByte addr).source = s.source := rfl
@[simp] theorem State.readByte_ridx (addr : BitVec 9) : (s.readByte addr).ridx = s.ridx := rfl
@[simp] theorem State.readByte_agenda (addr : BitVec 9) : (s.readByte addr).agenda = s.agenda := rfl
@[simp] theorem State.readByte_returned (addr : BitVec 9) :
    (s.readByte addr).returned = s.returned ++ [.byte (getByte (s.view (opmemReg addr)) (opmemOffset addr))] := rfl
@[simp] theorem State.readByte_freeIdx (addr : BitVec 9) : (s.readByte addr).freeIdx = s.freeIdx + 1 := rfl

@[simp] theorem State.readFreeByte_regs : (s.readFreeByte).regs = s.regs := rfl
@[simp] theorem State.readFreeByte_status : (s.readFreeByte).status = s.status := rfl
@[simp] theorem State.readFreeByte_cmd : (s.readFreeByte).cmd = s.cmd := rfl
@[simp] theorem State.readFreeByte_rounds : (s.readFreeByte).rounds = s.rounds := rfl
@[simp] theorem State.readFreeByte_flight : (s.readFreeByte).flight = s.flight := rfl
@[simp] theorem State.readFreeByte_source : (s.readFreeByte).source = s.source := rfl
@[simp] theorem State.readFreeByte_ridx : (s.readFreeByte).ridx = s.ridx := rfl
@[simp] theorem State.readFreeByte_agenda : (s.readFreeByte).agenda = s.agenda := rfl
@[simp] theorem State.readFreeByte_returned :
    (s.readFreeByte).returned = s.returned ++ [.busyByte (Config.freeByte s.freeIdx)] := rfl
@[simp] theorem State.readFreeByte_freeIdx : (s.readFreeByte).freeIdx = s.freeIdx + 1 := rfl

@[simp] theorem State.writeByte_regs (addr : BitVec 9) (b : Byte) :
    (s.writeByte addr b).regs = s.regs.set (opmemReg addr).val ((s.regs[opmemReg addr]).withByte (opmemOffset addr) b) (opmemReg addr).isLt := rfl
@[simp] theorem State.writeByte_status (addr : BitVec 9) (b : Byte) : (s.writeByte addr b).status = s.status := rfl
@[simp] theorem State.writeByte_cmd (addr : BitVec 9) (b : Byte) : (s.writeByte addr b).cmd = s.cmd := rfl
@[simp] theorem State.writeByte_rounds (addr : BitVec 9) (b : Byte) : (s.writeByte addr b).rounds = s.rounds := rfl
@[simp] theorem State.writeByte_flight (addr : BitVec 9) (b : Byte) : (s.writeByte addr b).flight = s.flight := rfl
@[simp] theorem State.writeByte_source (addr : BitVec 9) (b : Byte) : (s.writeByte addr b).source = s.source := rfl
@[simp] theorem State.writeByte_ridx (addr : BitVec 9) (b : Byte) : (s.writeByte addr b).ridx = s.ridx := rfl
@[simp] theorem State.writeByte_agenda (addr : BitVec 9) (b : Byte) : (s.writeByte addr b).agenda = s.agenda := rfl
@[simp] theorem State.writeByte_returned (addr : BitVec 9) (b : Byte) : (s.writeByte addr b).returned = s.returned := rfl
@[simp] theorem State.writeByte_freeIdx (addr : BitVec 9) (b : Byte) : (s.writeByte addr b).freeIdx = s.freeIdx := rfl

@[simp] theorem State.deliver_regs (w : Limb) : (s.deliver w).regs = s.regs := rfl
@[simp] theorem State.deliver_status (w : Limb) : (s.deliver w).status = s.status := rfl
@[simp] theorem State.deliver_cmd (w : Limb) : (s.deliver w).cmd = s.cmd := rfl
@[simp] theorem State.deliver_rounds (w : Limb) : (s.deliver w).rounds = s.rounds := rfl
@[simp] theorem State.deliver_flight (w : Limb) : (s.deliver w).flight = s.flight := rfl
@[simp] theorem State.deliver_source (w : Limb) : (s.deliver w).source = s.source ++ [w] := rfl
@[simp] theorem State.deliver_ridx (w : Limb) : (s.deliver w).ridx = s.ridx := rfl
@[simp] theorem State.deliver_agenda (w : Limb) : (s.deliver w).agenda = s.agenda := rfl
@[simp] theorem State.deliver_returned (w : Limb) : (s.deliver w).returned = s.returned := rfl
@[simp] theorem State.deliver_freeIdx (w : Limb) : (s.deliver w).freeIdx = s.freeIdx := rfl

@[simp] theorem State.accept_regs (f : Flight) : (s.accept f).regs = s.regs := rfl
@[simp] theorem State.accept_status (f : Flight) : (s.accept f).status = { s.status with done := false, ill := false } := rfl
@[simp] theorem State.accept_cmd (f : Flight) : (s.accept f).cmd = encode f.instr := rfl
@[simp] theorem State.accept_rounds (f : Flight) : (s.accept f).rounds = s.rounds := rfl
@[simp] theorem State.accept_flight (f : Flight) : (s.accept f).flight = some f := rfl
@[simp] theorem State.accept_source (f : Flight) : (s.accept f).source = s.source := rfl
@[simp] theorem State.accept_ridx (f : Flight) : (s.accept f).ridx = s.ridx := rfl
@[simp] theorem State.accept_agenda (f : Flight) : (s.accept f).agenda = s.agenda := rfl
@[simp] theorem State.accept_returned (f : Flight) : (s.accept f).returned = s.returned := rfl
@[simp] theorem State.accept_freeIdx (f : Flight) : (s.accept f).freeIdx = s.freeIdx + 1 := rfl

@[simp] theorem State.complete_regs : (s.complete).regs = s.regs := rfl
@[simp] theorem State.complete_status : (s.complete).status = { s.status with done := true } := rfl
@[simp] theorem State.complete_cmd : (s.complete).cmd = s.cmd := rfl
@[simp] theorem State.complete_rounds : (s.complete).rounds = s.rounds := rfl
@[simp] theorem State.complete_flight : (s.complete).flight = none := rfl
@[simp] theorem State.complete_source : (s.complete).source = s.source := rfl
@[simp] theorem State.complete_ridx : (s.complete).ridx = s.ridx := rfl
@[simp] theorem State.complete_agenda : (s.complete).agenda = s.agenda := rfl
@[simp] theorem State.complete_returned : (s.complete).returned = s.returned := rfl
@[simp] theorem State.complete_freeIdx : (s.complete).freeIdx = s.freeIdx := rfl

@[simp] theorem State.illegal_regs : (s.illegal).regs = s.regs := rfl
@[simp] theorem State.illegal_status : (s.illegal).status = { s.status with done := false, ill := true } := rfl
@[simp] theorem State.illegal_cmd : (s.illegal).cmd = s.cmd := rfl
@[simp] theorem State.illegal_rounds : (s.illegal).rounds = s.rounds := rfl
@[simp] theorem State.illegal_flight : (s.illegal).flight = s.flight := rfl
@[simp] theorem State.illegal_source : (s.illegal).source = s.source := rfl
@[simp] theorem State.illegal_ridx : (s.illegal).ridx = s.ridx := rfl
@[simp] theorem State.illegal_agenda : (s.illegal).agenda = s.agenda := rfl
@[simp] theorem State.illegal_returned : (s.illegal).returned = s.returned := rfl
@[simp] theorem State.illegal_freeIdx : (s.illegal).freeIdx = s.freeIdx := rfl

@[simp] theorem State.hardReset_regs : (s.hardReset).regs = Vector.replicate 8 ⟨0, 0, 0⟩ := rfl
@[simp] theorem State.hardReset_status : (s.hardReset).status = Status.cleared := rfl
@[simp] theorem State.hardReset_cmd : (s.hardReset).cmd = 0 := rfl
@[simp] theorem State.hardReset_rounds : (s.hardReset).rounds = Config.defaultRounds := rfl
@[simp] theorem State.hardReset_flight : (s.hardReset).flight = none := rfl
@[simp] theorem State.hardReset_source : (s.hardReset).source = s.source := rfl
@[simp] theorem State.hardReset_ridx : (s.hardReset).ridx = s.ridx := rfl
@[simp] theorem State.hardReset_agenda : (s.hardReset).agenda = s.agenda := rfl
@[simp] theorem State.hardReset_returned : (s.hardReset).returned = s.returned := rfl
@[simp] theorem State.hardReset_freeIdx : (s.hardReset).freeIdx = s.freeIdx := rfl

@[simp] theorem State.setCmp_regs (c : CmpResult) : (s.setCmp c).regs = s.regs := rfl
@[simp] theorem State.setCmp_status (c : CmpResult) : (s.setCmp c).status = { s.status with cmp := c } := rfl
@[simp] theorem State.setCmp_cmd (c : CmpResult) : (s.setCmp c).cmd = s.cmd := rfl
@[simp] theorem State.setCmp_rounds (c : CmpResult) : (s.setCmp c).rounds = s.rounds := rfl
@[simp] theorem State.setCmp_flight (c : CmpResult) : (s.setCmp c).flight = s.flight := rfl
@[simp] theorem State.setCmp_source (c : CmpResult) : (s.setCmp c).source = s.source := rfl
@[simp] theorem State.setCmp_ridx (c : CmpResult) : (s.setCmp c).ridx = s.ridx := rfl
@[simp] theorem State.setCmp_agenda (c : CmpResult) : (s.setCmp c).agenda = s.agenda := rfl
@[simp] theorem State.setCmp_returned (c : CmpResult) : (s.setCmp c).returned = s.returned := rfl
@[simp] theorem State.setCmp_freeIdx (c : CmpResult) : (s.setCmp c).freeIdx = s.freeIdx := rfl

@[simp] theorem State.setEven_regs (e : Bool) : (s.setEven e).regs = s.regs := rfl
@[simp] theorem State.setEven_status (e : Bool) : (s.setEven e).status = { s.status with even := e } := rfl
@[simp] theorem State.setEven_cmd (e : Bool) : (s.setEven e).cmd = s.cmd := rfl
@[simp] theorem State.setEven_rounds (e : Bool) : (s.setEven e).rounds = s.rounds := rfl
@[simp] theorem State.setEven_flight (e : Bool) : (s.setEven e).flight = s.flight := rfl
@[simp] theorem State.setEven_source (e : Bool) : (s.setEven e).source = s.source := rfl
@[simp] theorem State.setEven_ridx (e : Bool) : (s.setEven e).ridx = s.ridx := rfl
@[simp] theorem State.setEven_agenda (e : Bool) : (s.setEven e).agenda = s.agenda := rfl
@[simp] theorem State.setEven_returned (e : Bool) : (s.setEven e).returned = s.returned := rfl
@[simp] theorem State.setEven_freeIdx (e : Bool) : (s.setEven e).freeIdx = s.freeIdx := rfl

@[simp] theorem State.setBorrow_regs (b : Bool) : (s.setBorrow b).regs = s.regs := rfl
@[simp] theorem State.setBorrow_status (b : Bool) : (s.setBorrow b).status = { s.status with borrow := b } := rfl
@[simp] theorem State.setBorrow_cmd (b : Bool) : (s.setBorrow b).cmd = s.cmd := rfl
@[simp] theorem State.setBorrow_rounds (b : Bool) : (s.setBorrow b).rounds = s.rounds := rfl
@[simp] theorem State.setBorrow_flight (b : Bool) : (s.setBorrow b).flight = s.flight := rfl
@[simp] theorem State.setBorrow_source (b : Bool) : (s.setBorrow b).source = s.source := rfl
@[simp] theorem State.setBorrow_ridx (b : Bool) : (s.setBorrow b).ridx = s.ridx := rfl
@[simp] theorem State.setBorrow_agenda (b : Bool) : (s.setBorrow b).agenda = s.agenda := rfl
@[simp] theorem State.setBorrow_returned (b : Bool) : (s.setBorrow b).returned = s.returned := rfl
@[simp] theorem State.setBorrow_freeIdx (b : Bool) : (s.setBorrow b).freeIdx = s.freeIdx := rfl

@[simp] theorem State.setPhase_regs (p : Phase) : (s.setPhase p).regs = s.regs := rfl
@[simp] theorem State.setPhase_status (p : Phase) : (s.setPhase p).status = { s.status with phase := p } := rfl
@[simp] theorem State.setPhase_cmd (p : Phase) : (s.setPhase p).cmd = s.cmd := rfl
@[simp] theorem State.setPhase_rounds (p : Phase) : (s.setPhase p).rounds = s.rounds := rfl
@[simp] theorem State.setPhase_flight (p : Phase) : (s.setPhase p).flight = s.flight := rfl
@[simp] theorem State.setPhase_source (p : Phase) : (s.setPhase p).source = s.source := rfl
@[simp] theorem State.setPhase_ridx (p : Phase) : (s.setPhase p).ridx = s.ridx := rfl
@[simp] theorem State.setPhase_agenda (p : Phase) : (s.setPhase p).agenda = s.agenda := rfl
@[simp] theorem State.setPhase_returned (p : Phase) : (s.setPhase p).returned = s.returned := rfl
@[simp] theorem State.setPhase_freeIdx (p : Phase) : (s.setPhase p).freeIdx = s.freeIdx := rfl

@[simp] theorem State.setVerdict_regs (v : Verdict) : (s.setVerdict v).regs = s.regs := rfl
@[simp] theorem State.setVerdict_status (v : Verdict) : (s.setVerdict v).status = { s.status with verdict := v } := rfl
@[simp] theorem State.setVerdict_cmd (v : Verdict) : (s.setVerdict v).cmd = s.cmd := rfl
@[simp] theorem State.setVerdict_rounds (v : Verdict) : (s.setVerdict v).rounds = s.rounds := rfl
@[simp] theorem State.setVerdict_flight (v : Verdict) : (s.setVerdict v).flight = s.flight := rfl
@[simp] theorem State.setVerdict_source (v : Verdict) : (s.setVerdict v).source = s.source := rfl
@[simp] theorem State.setVerdict_ridx (v : Verdict) : (s.setVerdict v).ridx = s.ridx := rfl
@[simp] theorem State.setVerdict_agenda (v : Verdict) : (s.setVerdict v).agenda = s.agenda := rfl
@[simp] theorem State.setVerdict_returned (v : Verdict) : (s.setVerdict v).returned = s.returned := rfl
@[simp] theorem State.setVerdict_freeIdx (v : Verdict) : (s.setVerdict v).freeIdx = s.freeIdx := rfl

@[simp] theorem State.acceptMrtest_regs (ra : RegIdx) : (s.acceptMrtest ra).regs = s.regs := rfl
@[simp] theorem State.acceptMrtest_status (ra : RegIdx) :
    (s.acceptMrtest ra).status = { s.status with done := false, ill := false, phase := .start, verdict := .none } := rfl
@[simp] theorem State.acceptMrtest_cmd (ra : RegIdx) : (s.acceptMrtest ra).cmd = encode (.mrtest ra) := rfl
@[simp] theorem State.acceptMrtest_rounds (ra : RegIdx) : (s.acceptMrtest ra).rounds = s.rounds := rfl
@[simp] theorem State.acceptMrtest_flight (ra : RegIdx) :
    (s.acceptMrtest ra).flight = some (Flight.latched (.mrtest ra) (s.view ra) 0 0 s.rounds (s.initialised ra)) := rfl
@[simp] theorem State.acceptMrtest_source (ra : RegIdx) : (s.acceptMrtest ra).source = s.source := rfl
@[simp] theorem State.acceptMrtest_ridx (ra : RegIdx) : (s.acceptMrtest ra).ridx = s.ridx := rfl
@[simp] theorem State.acceptMrtest_agenda (ra : RegIdx) : (s.acceptMrtest ra).agenda = s.agenda := rfl
@[simp] theorem State.acceptMrtest_returned (ra : RegIdx) : (s.acceptMrtest ra).returned = s.returned := rfl
@[simp] theorem State.acceptMrtest_freeIdx (ra : RegIdx) : (s.acceptMrtest ra).freeIdx = s.freeIdx + 1 := rfl

@[simp] theorem State.readCsr_regs (i : Fin 16) : (s.readCsr i).regs = s.regs := rfl
@[simp] theorem State.readCsr_status (i : Fin 16) : (s.readCsr i).status = s.status := rfl
@[simp] theorem State.readCsr_cmd (i : Fin 16) : (s.readCsr i).cmd = s.cmd := rfl
@[simp] theorem State.readCsr_rounds (i : Fin 16) : (s.readCsr i).rounds = s.rounds := rfl
@[simp] theorem State.readCsr_flight (i : Fin 16) : (s.readCsr i).flight = s.flight := rfl
@[simp] theorem State.readCsr_source (i : Fin 16) : (s.readCsr i).source = s.source := rfl
@[simp] theorem State.readCsr_ridx (i : Fin 16) : (s.readCsr i).ridx = s.ridx := rfl
@[simp] theorem State.readCsr_agenda (i : Fin 16) : (s.readCsr i).agenda = s.agenda := rfl
@[simp] theorem State.readCsr_returned (i : Fin 16) : (s.readCsr i).returned = s.returned ++ [.word (s.csrValue i)] := rfl
@[simp] theorem State.readCsr_freeIdx (i : Fin 16) : (s.readCsr i).freeIdx = s.freeIdx := rfl

@[simp] theorem State.setRounds_regs (v : BitVec 32) : (s.setRounds v).regs = s.regs := rfl
@[simp] theorem State.setRounds_status (v : BitVec 32) : (s.setRounds v).status = s.status := rfl
@[simp] theorem State.setRounds_cmd (v : BitVec 32) : (s.setRounds v).cmd = s.cmd := rfl
@[simp] theorem State.setRounds_rounds (v : BitVec 32) : (s.setRounds v).rounds = v.setWidth 16 := rfl
@[simp] theorem State.setRounds_flight (v : BitVec 32) : (s.setRounds v).flight = s.flight := rfl
@[simp] theorem State.setRounds_source (v : BitVec 32) : (s.setRounds v).source = s.source := rfl
@[simp] theorem State.setRounds_ridx (v : BitVec 32) : (s.setRounds v).ridx = s.ridx := rfl
@[simp] theorem State.setRounds_agenda (v : BitVec 32) : (s.setRounds v).agenda = s.agenda := rfl
@[simp] theorem State.setRounds_returned (v : BitVec 32) : (s.setRounds v).returned = s.returned := rfl
@[simp] theorem State.setRounds_freeIdx (v : BitVec 32) : (s.setRounds v).freeIdx = s.freeIdx := rfl

@[simp] theorem Flight.latched_instr (i : Instr) (a b m : Word) (rs : BitVec 16) (ok : Bool) : (Flight.latched i a b m rs ok).instr = i := rfl
@[simp] theorem Flight.latched_opA (i : Instr) (a b m : Word) (rs : BitVec 16) (ok : Bool) : (Flight.latched i a b m rs ok).opA = a := rfl
@[simp] theorem Flight.latched_opB (i : Instr) (a b m : Word) (rs : BitVec 16) (ok : Bool) : (Flight.latched i a b m rs ok).opB = b := rfl
@[simp] theorem Flight.latched_opM (i : Instr) (a b m : Word) (rs : BitVec 16) (ok : Bool) : (Flight.latched i a b m rs ok).opM = m := rfl
@[simp] theorem Flight.latched_rs (i : Instr) (a b m : Word) (rs : BitVec 16) (ok : Bool) : (Flight.latched i a b m rs ok).rs = rs := rfl
@[simp] theorem Flight.latched_draws (i : Instr) (a b m : Word) (rs : BitVec 16) (ok : Bool) : (Flight.latched i a b m rs ok).draws = [] := rfl
@[simp] theorem Flight.latched_initialised (i : Instr) (a b m : Word) (rs : BitVec 16) (ok : Bool) :
    (Flight.latched i a b m rs ok).initialised = ok := rfl

end Sys2Proof.Machine
end

