-- ==== Sys2Proof/Laws/Ops.lean ====
section
/-! SUPPORT. What each shared operation can do, said once. -/

namespace Sys2Proof.Machine

/-! ## Bytes of a register -/

theorem getLsbD_byteMask (o : BitVec 6) (j : Nat) :
    (byteMask o).getLsbD j = (decide (byteShift o ≤ j) && decide (j < byteShift o + 8)) := by
  have h : o.toNat < 64 := o.isLt
  simp only [byteMask, byteShift, BitVec.getLsbD_shiftLeft, BitVec.getLsbD_setWidth, BitVec.getLsbD_allOnes]
  by_cases h1 : 8 * (63 - o.toNat) ≤ j <;> by_cases h2 : j < 8 * (63 - o.toNat) + 8 <;>
    simp [h1, h2] <;> omega

theorem getLsbD_setByte (v : Word) (o : BitVec 6) (b : Byte) (j : Nat) (hj : j < 512) :
    (setByte v o b).getLsbD j =
      if byteShift o ≤ j ∧ j < byteShift o + 8 then b.getLsbD (j - byteShift o) else v.getLsbD j := by
  simp only [setByte, BitVec.getLsbD_or, BitVec.getLsbD_and, BitVec.getLsbD_not, getLsbD_byteMask,
    BitVec.getLsbD_shiftLeft, BitVec.getLsbD_setWidth]
  by_cases h1 : byteShift o ≤ j
  · by_cases h2 : j < byteShift o + 8
    · have : j - byteShift o < 512 := by omega
      simp [h1, h2, hj, this, Nat.not_lt.mpr h1]
    · have : b.getLsbD (j - byteShift o) = false := BitVec.getLsbD_of_ge _ _ (by omega)
      simp [h1, h2, hj, this]
  · simp [h1, hj, Nat.lt_of_not_le h1]

/-- Read after write of the same byte. -/
theorem getByte_setByte_same (v : Word) (o : BitVec 6) (b : Byte) : getByte (setByte v o b) o = b := by
  have h : o.toNat < 64 := o.isLt
  ext j hj
  simp only [getByte, ← BitVec.getLsbD_eq_getElem, BitVec.getLsbD_extractLsb']
  rw [getLsbD_setByte _ _ _ _ (by simp only [byteShift]; omega)]
  simp [hj]

/-- A write of one byte leaves every other byte alone. -/
theorem getByte_setByte_other (v : Word) (o p : BitVec 6) (b : Byte) (h : p ≠ o) :
    getByte (setByte v o b) p = getByte v p := by
  have ho : o.toNat < 64 := o.isLt
  have hp : p.toNat < 64 := p.isLt
  have hne : p.toNat ≠ o.toNat := fun e => h (BitVec.eq_of_toNat_eq e)
  ext j hj
  simp only [getByte, ← BitVec.getLsbD_eq_getElem, BitVec.getLsbD_extractLsb']
  rw [getLsbD_setByte _ _ _ _ (by simp only [byteShift]; omega), if_neg]
  simp only [byteShift]; omega

/-! ## One register -/

@[simp] theorem Reg.result_written (v : Word) (ok : Bool) : (Reg.result v ok).written = allBits := rfl
@[simp] theorem Reg.result_value (v : Word) (ok : Bool) : (Reg.result v ok).value = v := rfl
@[simp] theorem Reg.result_initialised (v : Word) (ok : Bool) : (Reg.result v ok).initialised = if ok then allBits else 0 := rfl
@[simp] theorem Reg.result_true (v : Word) : Reg.result v true = Reg.full v := rfl
@[simp] theorem Reg.result_under (v free : Word) (ok : Bool) : (Reg.result v ok).under free = v := by simp [Reg.under]
@[simp] theorem Reg.full_initialised (v : Word) : (Reg.full v).initialised = allBits := rfl
@[simp] theorem Reg.full_written (v : Word) : (Reg.full v).written = allBits := rfl
@[simp] theorem Reg.full_value (v : Word) : (Reg.full v).value = v := rfl
@[simp] theorem Reg.full_under (v free : Word) : (Reg.full v).under free = v := by simp [Reg.under]

/-- A register nothing has written reads as the free value. -/
@[simp] theorem Reg.unwritten_under (v i free : Word) : (Reg.mk v 0#512 i).under free = free := by
  have h : 0#512 ≠ allBits := by
    intro e
    have := congrArg (fun w : Word => w.getLsbD 0) e
    simp [allBits] at this
  simp only [Reg.under, if_neg h]
  ext j hj
  simp only [BitVec.getElem_or, BitVec.getElem_and, BitVec.getElem_not]
  simp

theorem Reg.result_canonical (v : Word) (ok : Bool) : (Reg.result v ok).canonical := by
  simp [Reg.canonical, Reg.result, allBits]

theorem Reg.full_canonical (v : Word) : (Reg.full v).canonical := Reg.result_canonical v true

theorem Reg.zero_canonical : (Reg.mk 0 0 0).canonical := by simp [Reg.canonical]

theorem Reg.result_initialisedIsWritten (v : Word) (ok : Bool) : (Reg.result v ok).initialisedIsWritten := by
  simp [Reg.initialisedIsWritten, Reg.result, allBits]

theorem Reg.zero_initialisedIsWritten : (Reg.mk 0 0 0).initialisedIsWritten := by simp [Reg.initialisedIsWritten]

/-- A byte write initialises the bits it writes (rule R254). -/
theorem Reg.withByte_initialisedIsWritten (r : Reg) (o : BitVec 6) (b : Byte) (h : r.initialisedIsWritten) :
    (r.withByte o b).initialisedIsWritten := by
  simp only [Reg.initialisedIsWritten, Reg.withByte] at *
  apply BitVec.eq_of_getLsbD_eq
  intro j hj
  have hr := congrArg (fun v : Word => v.getLsbD j) h
  simp only [BitVec.getLsbD_and, BitVec.getLsbD_not, BitVec.getLsbD_or, hj, decide_true, Bool.true_and] at hr ⊢
  generalize r.initialised.getLsbD j = x at *
  generalize r.written.getLsbD j = y at *
  generalize (byteMask o).getLsbD j = z at *
  revert hr
  cases x <;> cases y <;> cases z <;> simp

/-- A byte write keeps the canonical form. -/
theorem Reg.withByte_canonical (r : Reg) (o : BitVec 6) (b : Byte) (h : r.canonical) : (r.withByte o b).canonical := by
  simp only [Reg.canonical, Reg.withByte] at *
  apply BitVec.eq_of_getLsbD_eq
  intro j hj
  have hr := congrArg (fun v : Word => v.getLsbD j) h
  simp only [BitVec.getLsbD_and, BitVec.getLsbD_not, BitVec.getLsbD_or, hj, decide_true, Bool.true_and,
    getLsbD_setByte _ _ _ _ hj, getLsbD_byteMask] at hr ⊢
  split
  · rename_i hb; simp [hb.1, hb.2]
  · generalize r.value.getLsbD j = x at *
    generalize r.written.getLsbD j = y at *
    revert hr
    cases x <;> cases y <;> simp

/-! ## The register file -/

/-- Every register of the file is canonical. -/
abbrev State.regsCanonical (s : State) : Prop := ∀ k : RegIdx, (s.regs[k]).canonical

theorem regs_set_same (regs : Vector Reg 8) (k : RegIdx) (r : Reg) : (regs.set k.val r k.isLt)[k] = r := by
  simp [Fin.getElem_fin]

theorem regs_set_other (regs : Vector Reg 8) (k j : RegIdx) (r : Reg) (h : j ≠ k) :
    (regs.set k.val r k.isLt)[j] = regs[j] := by
  have : k.val ≠ j.val := fun e => h (Fin.ext e.symm)
  simp [Fin.getElem_fin, Vector.getElem_set_ne, this]

/-- What holds of every register and of the register written holds of every register after the write. -/
theorem regs_set_all (p : Reg → Prop) (regs : Vector Reg 8) (k : RegIdx) (r : Reg) (hr : p r)
    (h : ∀ j : RegIdx, p regs[j]) (j : RegIdx) : p (regs.set k.val r k.isLt)[j] := by
  by_cases e : j = k
  · subst e; rw [regs_set_same]; exact hr
  · rw [regs_set_other _ _ _ _ e]; exact h j

theorem State.setReg_canonical (s : State) (k : RegIdx) (v : Word) (ok : Bool) (h : s.regsCanonical) :
    (s.setReg k v ok).regsCanonical :=
  regs_set_all Reg.canonical _ _ _ (Reg.result_canonical v ok) h

theorem State.writeByte_canonical (s : State) (addr : BitVec 9) (b : Byte) (h : s.regsCanonical) :
    (s.writeByte addr b).regsCanonical :=
  regs_set_all Reg.canonical _ _ _ (Reg.withByte_canonical _ _ _ (h _)) h

theorem State.hardReset_canonical (s : State) : s.hardReset.regsCanonical := by
  intro k
  simp only [State.hardReset_regs, Fin.getElem_fin, Vector.getElem_replicate]
  exact Reg.zero_canonical

theorem State.reset_canonical : State.reset.regsCanonical := State.hardReset_canonical State.reset

theorem State.setReg_initialisedIsWritten (s : State) (k : RegIdx) (v : Word) (ok : Bool)
    (h : ∀ j : RegIdx, (s.regs[j]).initialisedIsWritten) (j : RegIdx) : ((s.setReg k v ok).regs[j]).initialisedIsWritten :=
  regs_set_all Reg.initialisedIsWritten _ _ _ (Reg.result_initialisedIsWritten v ok) h j

theorem State.writeByte_initialisedIsWritten (s : State) (addr : BitVec 9) (b : Byte)
    (h : ∀ j : RegIdx, (s.regs[j]).initialisedIsWritten) (j : RegIdx) :
    ((s.writeByte addr b).regs[j]).initialisedIsWritten :=
  regs_set_all Reg.initialisedIsWritten _ _ _ (Reg.withByte_initialisedIsWritten _ _ _ (h _)) h j

theorem State.hardReset_initialisedIsWritten (s : State) (j : RegIdx) : (s.hardReset.regs[j]).initialisedIsWritten := by
  simp only [State.hardReset_regs, Fin.getElem_fin, Vector.getElem_replicate]
  exact Reg.zero_initialisedIsWritten

theorem State.reset_initialisedIsWritten (j : RegIdx) : (State.reset.regs[j]).initialisedIsWritten :=
  State.hardReset_initialisedIsWritten State.reset j

/-- A register reads as the value a command has given it. -/
@[simp] theorem State.view_setReg_same (s : State) (k : RegIdx) (v : Word) (ok : Bool) : (s.setReg k v ok).view k = v := by
  simp only [State.view, State.setReg_regs, regs_set_same, Reg.result_under]

theorem State.view_setReg_other (s : State) (k j : RegIdx) (v : Word) (ok : Bool) (h : j ≠ k) :
    (s.setReg k v ok).view j = s.view j := by
  simp only [State.view, State.setReg_regs, State.setReg_freeIdx, regs_set_other _ _ _ _ h]

/-- A fully written register reads as stored. -/
theorem State.view_of_written (s : State) (k : RegIdx) (h : (s.regs[k]).written = allBits) : s.view k = (s.regs[k]).value := by
  simp only [State.view, Reg.under, h, if_true]

/-- An initialised register is full, and reads as stored (rule R254). -/
theorem State.initialised_iff (s : State) (k : RegIdx) : s.initialised k = true ↔ s.regs[k] = Reg.full (s.regs[k]).value := by
  rw [State.initialised, decide_eq_true_iff]
  constructor
  · rintro ⟨hw, hi⟩
    exact congrArg₂ (Reg.mk (s.regs[k]).value) hw hi
  · intro h
    rw [h]
    exact ⟨rfl, rfl⟩

theorem State.view_of_initialised (s : State) (k : RegIdx) (h : s.initialised k = true) : s.view k = (s.regs[k]).value :=
  s.view_of_written k (by rw [(s.initialised_iff k).1 h, Reg.full_written])

/-- The result of a command is initialised exactly if its sources were (rule R254). -/
theorem State.initialised_setReg_same (s : State) (k : RegIdx) (v : Word) (ok : Bool) :
    (s.setReg k v ok).initialised k = ok := by
  have h : (0 : Word) ≠ allBits := by
    intro e
    have := congrArg (fun w : Word => w.getLsbD 0) e
    simp [allBits] at this
  simp only [State.initialised, State.setReg_regs, regs_set_same]
  cases ok
  · simpa using h
  · simp

/-! ## A command's steps -/

theorem command_quiescent (i : Instr) (s a : State) (turn : Flight → State) (h : s.quiescent) :
    command i s a turn = .next a := by simp [command, h]

theorem command_inFlight (i : Instr) (s a : State) (turn : Flight → State) (f : Flight) (h : s.flight = some f)
    (hi : f.instr = i) : command i s a turn = .next (turn f) := by simp [command, h, hi]

theorem command_other (i : Instr) (s a : State) (turn : Flight → State) (f : Flight) (h : s.flight = some f)
    (hi : f.instr ≠ i) : command i s a turn = .next s := by simp [command, h, hi]

/-- Everything a command's step can do. -/
theorem command_cases {i : Instr} {s a t : State} {turn : Flight → State} (h : command i s a turn = .next t) :
    (s.quiescent ∧ t = a) ∨ (∃ f, s.flight = some f ∧ f.instr = i ∧ t = turn f) ∨
      (∃ f, s.flight = some f ∧ f.instr ≠ i ∧ t = s) := by
  unfold command at h
  cases hf : s.flight with
  | none => simp only [hf] at h; cases h; exact .inl ⟨hf, rfl⟩
  | some f =>
    simp only [hf] at h
    by_cases hi : f.instr = i
    · rw [if_pos hi] at h; cases h; exact .inr (.inl ⟨f, rfl, hi, rfl⟩)
    · rw [if_neg hi] at h; cases h; exact .inr (.inr ⟨f, rfl, hi, rfl⟩)

/-- A pull waits, or takes the next word (rules R87, R88). -/
theorem State.pull_cases (s : State) (f : Flight) :
    (s.source = [] ∧ s.pull f = s) ∨
      ∃ w ws, s.source = w :: ws ∧
        s.pull f = { s with source := ws, ridx := s.ridx + 1, flight := some { f with draws := f.draws ++ [w] } } := by
  cases h : s.source with
  | nil => exact .inl ⟨rfl, by simp [State.pull, h]⟩
  | cons w ws => exact .inr ⟨w, ws, rfl, by simp [State.pull, h]⟩

/-- A result is written and the command completes, or nothing changes (rules R109, R174). -/
theorem State.completeWith_cases (s : State) (rd : RegIdx) (v : Option Word) (ok : Bool) :
    (v = none ∧ s.completeWith rd v ok = s) ∨ ∃ x, v = some x ∧ s.completeWith rd v ok = (s.setReg rd x ok).complete := by
  cases v with
  | none => exact .inl ⟨rfl, rfl⟩
  | some x => exact .inr ⟨x, rfl, rfl⟩

/-- Everything round control can do (rules R201 to R203). -/
theorem State.mrRoundControl_cases (s : State) (f : Flight) (k : Nat) :
    (k = f.rs.toNat ∧ s.mrRoundControl f k = s.completePrime) ∨
      (k ≠ f.rs.toNat ∧
        s.mrRoundControl f k = { s.setPhase .roundInProgress with flight := some { f with draws := [], passed := k } }) := by
  unfold State.mrRoundControl
  by_cases h : k = f.rs.toNat
  · exact .inl ⟨h, if_pos h⟩
  · exact .inr ⟨h, if_neg h⟩

/-- Everything a turn inside a round can do (rules R204 to R211). -/
theorem State.mrRound_cases (s : State) (f : Flight) :
    (f.draws.length < 8 ∧ s.mrRound f = s.pull f) ∨
      (8 ≤ f.draws.length ∧
        ((roundOf f = some true ∧ s.mrRound f = s.mrRoundControl f (f.passed + 1)) ∨
          (roundOf f = some false ∧ s.mrRound f = s.completeComposite) ∨ (roundOf f = none ∧ s.mrRound f = s))) := by
  unfold State.mrRound
  by_cases h : f.draws.length < Config.numWords
  · exact .inl ⟨h, if_pos h⟩
  · refine .inr ⟨Nat.le_of_not_lt h, ?_⟩
    rw [if_neg h]
    cases hr : roundOf f with
    | none => exact .inr (.inr ⟨rfl, rfl⟩)
    | some b => cases b <;> simp

/-- Everything a turn of MRTEST can do, by PHASE (rule R196). -/
theorem State.mrTurn_cases (s : State) (f : Flight) :
    (s.status.phase = .start ∧ s.mrTurn f = s.mrStart f) ∨
      (s.status.phase = .decomposed ∧ s.mrTurn f = s.mrRoundControl f f.passed) ∨
      (s.status.phase = .roundInProgress ∧ s.mrTurn f = s.mrRound f) ∨
      (s.status.phase.testing = false ∧ s.mrTurn f = s) := by
  cases h : s.status.phase <;> simp [State.mrTurn, h, Phase.testing]

/-! ## PHASE -/

@[simp] theorem Phase.testing_idle : Phase.idle.testing = false := rfl
@[simp] theorem Phase.testing_start : Phase.start.testing = true := rfl
@[simp] theorem Phase.testing_decomposed : Phase.decomposed.testing = true := rfl
@[simp] theorem Phase.testing_roundInProgress : Phase.roundInProgress.testing = true := rfl
@[simp] theorem Phase.testing_probablyPrime : Phase.probablyPrime.testing = false := rfl
@[simp] theorem Phase.testing_composite : Phase.composite.testing = false := rfl
@[simp] theorem Phase.verdict_idle : Phase.idle.verdict = .none := rfl
@[simp] theorem Phase.verdict_start : Phase.start.verdict = .none := rfl
@[simp] theorem Phase.verdict_decomposed : Phase.decomposed.verdict = .none := rfl
@[simp] theorem Phase.verdict_roundInProgress : Phase.roundInProgress.verdict = .none := rfl
@[simp] theorem Phase.verdict_probablyPrime : Phase.probablyPrime.verdict = .probablyPrime := rfl
@[simp] theorem Phase.verdict_composite : Phase.composite.verdict = .composite := rfl

end Sys2Proof.Machine
end

