-- ==== Sys2Proof/Laws/PerInstr.lean ====
section
/-! SUPPORT. The per-instruction family Encoding: the word of every command is well formed, that is, its opcode is assigned,
its register fields are legal, and every bit that must be 0 is 0 (rules R101, R102, R105). -/

namespace Sys2Proof.Laws.Encoding

/-- The word of a command is well formed. -/
def Statement (i : Instr) : Prop := wellFormedWord (encode i) = true

theorem zero (rd : RegIdx) : Statement (.zero rd) :=
  wellFormedWord_commandWord _ _ _ _ _ formatD rfl nofun (fun _ => rfl) (fun _ => rfl) (fun _ => rfl)

theorem copy (rd ra : RegIdx) : Statement (.copy rd ra) :=
  wellFormedWord_commandWord _ _ _ _ _ formatDA rfl nofun nofun (fun _ => rfl) (fun _ => rfl)

theorem cmp (ra rb : RegIdx) : Statement (.cmp ra rb) :=
  wellFormedWord_commandWord _ _ _ _ _ formatAB rfl (fun _ => rfl) nofun nofun (fun _ => rfl)

theorem iseven (ra : RegIdx) : Statement (.iseven ra) :=
  wellFormedWord_commandWord _ _ _ _ _ formatA rfl (fun _ => rfl) nofun (fun _ => rfl) (fun _ => rfl)

theorem sub (rd ra rb : RegIdx) : Statement (.sub rd ra rb) :=
  wellFormedWord_commandWord _ _ _ _ _ formatDAB rfl nofun nofun nofun (fun _ => rfl)

theorem shr1 (rd ra : RegIdx) : Statement (.shr1 rd ra) :=
  wellFormedWord_commandWord _ _ _ _ _ formatDA rfl nofun nofun (fun _ => rfl) (fun _ => rfl)

theorem randc (rd : RegIdx) : Statement (.randc rd) :=
  wellFormedWord_commandWord _ _ _ _ _ formatD rfl nofun (fun _ => rfl) (fun _ => rfl) (fun _ => rfl)

theorem mulmod (rd ra rb rm : RegIdx) : Statement (.mulmod rd ra rb rm) :=
  wellFormedWord_commandWord _ _ _ _ _ formatDABM rfl nofun nofun nofun nofun

theorem powmod (rd ra rb rm : RegIdx) : Statement (.powmod rd ra rb rm) :=
  wellFormedWord_commandWord _ _ _ _ _ formatDABM rfl nofun nofun nofun nofun

theorem mrtest (ra : RegIdx) : Statement (.mrtest ra) :=
  wellFormedWord_commandWord _ _ _ _ _ formatA rfl (fun _ => rfl) nofun (fun _ => rfl) (fun _ => rfl)

end Sys2Proof.Laws.Encoding
end

