-- ==== Sys2Proof/Laws/Step.lean ====
section
/-! SUPPORT. What the host port, the engine's turn and the step do, case by case. -/

namespace Sys2Proof.Machine

theorem step_empty (s : State) (h : s.agenda = []) : step s = engineTurn s := by simp only [step, h]

theorem step_event (s : State) (e : Event) (rest : List Event) (h : s.agenda = e :: rest) :
    step s = event e { s with agenda := rest } := by simp only [step, h]

theorem engineTurn_idle (s : State) (h : s.quiescent) : engineTurn s = .next s := by
  have h' : s.flight = none := h
  simp only [engineTurn, h']

theorem engineTurn_inFlight (s : State) (f : Flight) (h : s.flight = some f) : engineTurn s = exec f.instr s := by
  simp only [engineTurn, h]

theorem busy_of_inFlight {s : State} {f : Flight} (h : s.flight = some f) : s.busy = true := by simp [State.busy, h]

theorem not_busy_of_quiescent {s : State} (h : s.quiescent) : s.busy = false := by
  have h' : s.flight = none := h
  simp [State.busy, h']

theorem offerCommand_dropped (v : BitVec 32) (s : State) (h : s.busy = true) : offerCommand v s = .next s := by
  simp [offerCommand, h]

theorem offerCommand_accepted (v : BitVec 32) (s : State) (i : Instr) (h : s.quiescent) (hd : decode v = .ok i) :
    offerCommand v s = exec i s := by simp [offerCommand, not_busy_of_quiescent h, hd]

theorem offerCommand_rejected (v : BitVec 32) (s : State) (e : Illegal) (h : s.quiescent) (hd : decode v = .error e) :
    offerCommand v s = .next s.illegal := by simp [offerCommand, not_busy_of_quiescent h, hd]

theorem csrWrite_cmd (v : BitVec 32) (s : State) : csrWrite 0 v s = offerCommand v s := rfl

theorem csrWrite_rounds (v : BitVec 32) (s : State) :
    csrWrite 2 v s = if s.busy then .next s else .next (s.setRounds v) := rfl

/-- Everything a CsrWrite to an index other than 0 can do (rules R81, R84). -/
theorem csrWrite_cases {i : Fin 16} {v : BitVec 32} {s t : State} (hi : i ≠ 0) (h : csrWrite i v s = .next t) :
    t = s ∨ (s.busy = false ∧ t = s.setRounds v) := by
  unfold csrWrite at h
  split at h
  · rename_i h0; exact absurd (Fin.ext h0) hi
  · split at h
    · cases h; exact .inl rfl
    · rename_i hb; cases h; exact .inr ⟨by simpa using hb, rfl⟩
  · cases h; exact .inl rfl

/-! ## WAIT -/

theorem waitOver_statusWord (s : State) : waitOver s.statusWord = (s.status.done || s.status.ill) := by
  simp only [waitOver, State.statusWord, BitVec.getLsbD_append]
  generalize s.status.done = done
  generalize s.status.ill = ill
  cases done <;> cases ill <;> rfl

/-- A poll ends the `WAIT` when DONE or ILL is 1 (rules R115, R256). -/
theorem State.waitPoll_over (s : State) (gaps : List Gap) (h : s.status.done = true ∨ s.status.ill = true) :
    s.waitPoll gaps = s.readCsr 1 := by
  have h' : waitOver (s.csrValue 1) = true := (waitOver_statusWord s).trans (by simpa using h)
  simp only [State.waitPoll, h', if_true]

/-- A poll that finds neither goes on to the next gap and the `WAIT` again (rule R115). -/
theorem State.waitPoll_again (s : State) (gaps : List Gap) (h : ¬ (s.status.done = true ∨ s.status.ill = true)) :
    s.waitPoll gaps = { s.readCsr 1 with agenda := waitAgain gaps ++ s.agenda } := by
  have h' : waitOver (s.csrValue 1) = false := (waitOver_statusWord s).trans (by simpa using h)
  simp [State.waitPoll, h']

/-- A poll changes nothing but what the host has read and does next. -/
theorem State.waitPoll_cases (s : State) (gaps : List Gap) : ∃ agenda, s.waitPoll gaps = { s.readCsr 1 with agenda := agenda } := by
  unfold State.waitPoll
  split
  · exact ⟨s.agenda, rfl⟩
  · exact ⟨_, rfl⟩

/-! ## Runs -/

theorem finishRun_quiescent (k : Nat) (s : State) (h : s.quiescent) : finishRun k s = .next s := by
  have h' : s.flight = none := h
  cases k <;> simp only [finishRun, h']

/-- A write of an illegal word is a run of one step (rule R267). -/
theorem wordRun_illegal (v : BitVec 32) (e : Illegal) (k : Nat) (s : State) (h : s.quiescent) (hd : decode v = .error e) :
    wordRun v (k + 1) s = .next s.illegal := by
  simp only [wordRun, offerCommand_rejected v s e h hd]
  exact finishRun_quiescent k _ h

/-- A write of a legal word begins the run of its command (rule R267). -/
theorem wordRun_legal (v : BitVec 32) (i : Instr) (k : Nat) (s : State) (h : s.quiescent) (hd : decode v = .ok i) :
    wordRun v k s = commandRun i k s := by
  cases k with
  | zero => rfl
  | succ k => simp only [wordRun, commandRun, offerCommand_accepted v s i h hd]

theorem step_ended {t : State} (ha : t.agenda = []) (hq : t.quiescent) : step t = .next t := by
  rw [step_empty t ha, engineTurn_idle t hq]

theorem runSteps_ended {t : State} (ha : t.agenda = []) (hq : t.quiescent) (k : Nat) : runSteps k t = .next t := by
  induction k with
  | zero => rfl
  | succ k ih => simpa only [runSteps, step_ended ha hq] using ih

theorem runSteps_add (j k : Nat) {s t : State} (h : runSteps j s = .next t) : runSteps (j + k) s = runSteps k t := by
  induction j generalizing s with
  | zero => cases h; rw [Nat.zero_add]
  | succ j ih =>
    rw [Nat.succ_add]
    cases hs : step s with
    | next u =>
      simp only [runSteps, hs] at h ⊢
      exact ih h
    | fault r => exact nomatch r
    | refused r => simp only [runSteps, hs] at h; cases h

/-- A host run ends in one state at most (rule R267). -/
theorem HostRunEnds.unique {script : List Event} {t u : State} (ht : HostRunEnds script t) (hu : HostRunEnds script u) : t = u := by
  obtain ⟨j, hj, ha, hq⟩ := ht
  obtain ⟨k, hk, ha', hq'⟩ := hu
  have h1 := runSteps_add j k hj
  have h2 := runSteps_add k j hk
  rw [runSteps_ended ha hq] at h1
  rw [runSteps_ended ha' hq', Nat.add_comm] at h2
  have h3 := h1.symm.trans h2
  cases h3
  rfl

/-- Every command's meaning has the shape of `command`. -/
theorem exec_eq_command (i : Instr) (s : State) : ∃ a turn, exec i s = command i s a turn := by
  cases i <;> exact ⟨_, _, rfl⟩

end Sys2Proof.Machine
end

