-- ==== Sys2Proof/Tests/Slice0.lean ====
section
/-! SUPPORT. Tests. Expected results come from the spec: the vectors V<n> of 95_test_vectors.md, the worked examples of the
command rules, or the encoding table of rule R104. The last part holds a witness for every statement with hypotheses. -/

namespace Sys2Proof.Machine.Tests

open Sys2Proof Sys2Proof.Machine

/-! ## Well-formed words: one ill-formed word for each check -/

theorem test_wf_accepts : wellFormedWord 0x09765400 = true := by decide
theorem test_wf_opcode_zero : wellFormedWord 0x00000000 = false := by decide
theorem test_wf_opcode_unassigned : wellFormedWord 0x0B000000 = false := by decide
theorem test_wf_rd_out_of_range : wellFormedWord 0x01800000 = false := by decide
theorem test_wf_ra_out_of_range : wellFormedWord 0x04080000 = false := by decide
theorem test_wf_rb_out_of_range : wellFormedWord 0x03008000 = false := by decide
theorem test_wf_rm_out_of_range : wellFormedWord 0x08000800 = false := by decide
theorem test_wf_rd_unused : wellFormedWord 0x04100000 = false := by decide
theorem test_wf_ra_unused : wellFormedWord 0x01510000 = false := by decide
theorem test_wf_rb_unused : wellFormedWord 0x02001000 = false := by decide
theorem test_wf_rm_unused : wellFormedWord 0x0A000100 = false := by decide
theorem test_wf_z : wellFormedWord 0x01500001 = false := by decide

/-! ## Decoding: words written bit by bit from the patterns of rule R104, every field with a value of its own -/

/-- `00000001 0ddd 0000 0000 0000 00000000` with d = 101. -/
theorem test_decode_zero : decode 0b00000001010100000000000000000000 = .ok (.zero 5) := by decide
/-- `00000010 0ddd 0aaa 0000 0000 00000000` with d = 001, a = 110. -/
theorem test_decode_copy : decode 0b00000010000101100000000000000000 = .ok (.copy 1 6) := by decide
/-- `00000011 0000 0aaa 0bbb 0000 00000000` with a = 011, b = 100. -/
theorem test_decode_cmp : decode 0b00000011000000110100000000000000 = .ok (.cmp 3 4) := by decide
/-- `00000100 0000 0aaa 0000 0000 00000000` with a = 010. -/
theorem test_decode_iseven : decode 0b00000100000000100000000000000000 = .ok (.iseven 2) := by decide
/-- `00000101 0ddd 0aaa 0bbb 0000 00000000` with d = 010, a = 111, b = 001. -/
theorem test_decode_sub : decode 0b00000101001001110001000000000000 = .ok (.sub 2 7 1) := by decide
/-- `00000110 0ddd 0aaa 0000 0000 00000000` with d = 111, a = 010. -/
theorem test_decode_shr1 : decode 0b00000110011100100000000000000000 = .ok (.shr1 7 2) := by decide
/-- `00000111 0ddd 0000 0000 0000 00000000` with d = 100. -/
theorem test_decode_randc : decode 0b00000111010000000000000000000000 = .ok (.randc 4) := by decide
/-- `00001000 0ddd 0aaa 0bbb 0mmm 00000000` with d = 011, a = 000, b = 001, m = 010 (V69e). -/
theorem test_decode_mulmod : decode 0b00001000001100000001001000000000 = .ok (.mulmod 3 0 1 2) := by decide
/-- `00001001 0ddd 0aaa 0bbb 0mmm 00000000` with d = 111, a = 110, b = 101, m = 100 (V69f). -/
theorem test_decode_powmod : decode 0b00001001011101100101010000000000 = .ok (.powmod 7 6 5 4) := by decide
/-- `00001010 0000 0aaa 0000 0000 00000000` with a = 001. -/
theorem test_decode_mrtest : decode 0b00001010000000010000000000000000 = .ok (.mrtest 1) := by decide

/-- V61 to V67: rejected, by name. -/
theorem test_decode_all_zero : decode 0x00000000 = .error .unassignedOpcode := by decide
theorem test_decode_all_ones : decode 0xFFFFFFFF = .error .unassignedOpcode := by decide
theorem test_decode_rd_8 : decode 0x01800000 = .error .registerOutOfRange := by decide
theorem test_decode_z_1 : decode 0x01500001 = .error .reservedNotZero := by decide
theorem test_decode_unused_ra : decode 0x01510000 = .error .reservedNotZero := by decide
theorem test_decode_unused_rm : decode 0x0A000100 = .error .reservedNotZero := by decide

/-- Assembled words of 95_test_vectors.md, section 2.9. -/
theorem test_encode_words :
    encode (.zero 5) = 0x01500000 ∧ encode (.copy 1 0) = 0x02100000 ∧ encode (.cmp 3 4) = 0x03034000 ∧
    encode (.iseven 2) = 0x04020000 ∧ encode (.sub 2 0 1) = 0x05201000 ∧ encode (.shr1 2 2) = 0x06220000 ∧
    encode (.randc 0) = 0x07000000 ∧ encode (.mulmod 3 0 1 2) = 0x08301200 ∧
    encode (.powmod 3 0 1 2) = 0x09301200 ∧ encode (.mrtest 0) = 0x0A000000 := by decide

theorem test_decodeTableWord : decodeTableWord 32 0x05777000 = some (.sub 7 7 7) ∧ decodeTableWord 32 0x05777001 = none ∧
    decodeTableWord 33 0x01000000 = none := by decide

/-! ## Helpers -/

/-- Quiescent, R0, R1, R2 loaded. -/
def loaded (a b m : Word) : State :=
  { State.reset with regs := #v[.full a, .full b, .full m, ⟨0, 0, 0⟩, ⟨0, 0, 0⟩, ⟨0, 0, 0⟩, ⟨0, 0, 0⟩, ⟨0, 0, 0⟩] }

/-- Whether an outcome is a next state with a property. -/
def nextIs (o : Host.Outcome State Fault Refusal) (p : State → Bool) : Bool :=
  match o with
  | .next s => p s
  | .fault _ => false
  | .refused _ => false

/-- Whether the state holds the value, fully written, in the register, and STATUS reads so. -/
def holds (k : RegIdx) (v : Word) (status : BitVec 32) (s : State) : Bool :=
  decide (s.regs[k] = Reg.full v) && decide (s.statusWord = status)

/-- The eight words of a round with `r` a small number. -/
def smallDraw (r : Limb) : List Limb := [r, 0, 0, 0, 0, 0, 0, 0]

/-- An MRTEST of R0 in flight, with the PHASE and the hidden temporaries given. -/
def testingState (phase : Phase) (f : Flight) : State :=
  { State.reset with flight := some f, cmd := encode f.instr, status := { Status.cleared with phase := phase } }

/-- The flight of `MRTEST R0` on 221: `n - 1 = 55 · 2^2` (rule R200). -/
def flight221 (rs : BitVec 16) (draws : List Limb) : Flight :=
  ⟨.mrtest 0, 221, 0, 0, rs, draws, true, 220, 55, 2, 0⟩

/-! ## One test or two per command -/

/-- V68. -/
theorem test_zero : nextIs (commandRun (.zero 5) 2 (loaded 1 2 3)) (holds 5 0 0x00000002) = true := by decide +kernel
/-- Rule R131: 221 copied; the source keeps. -/
theorem test_copy : nextIs (commandRun (.copy 1 0) 2 (loaded 221 0 0)) (fun s => holds 1 221 2 s && holds 0 221 2 s) = true := by
  decide +kernel
/-- V2: word 1 decides. -/
theorem test_cmp_greater : nextIs (commandRun (.cmp 0 1) 2 (loaded (2 ^ 64) (2 ^ 64 - 1) 0))
    (fun s => decide (s.statusWord = 0x00000006)) = true := by decide +kernel
/-- V6: equal top words, word 0 decides. -/
theorem test_cmp_less : nextIs (commandRun (.cmp 0 1) 2 (loaded (2 ^ 448 + 5) (2 ^ 448 + 9) 0))
    (fun s => decide (s.statusWord = 0x0000000E)) = true := by decide +kernel
/-- V12 and V11. -/
theorem test_iseven : nextIs (commandRun (.iseven 0) 2 (loaded (2 ^ 511) 0 0)) (fun s => decide (s.statusWord = 0x00000012)) = true ∧
    nextIs (commandRun (.iseven 0) 2 (loaded allBits 0 0)) (fun s => decide (s.statusWord = 0x00000002)) = true := by
  decide +kernel
/-- V19: wrapped, BORROW = 1. -/
theorem test_sub_wraps : nextIs (commandRun (.sub 2 0 1) 2 (loaded 5 7 0)) (holds 2 (allBits - 1) 0x00000022) = true := by
  decide +kernel
/-- Section 2.3, aliasing: `SUB R0, R0, R0`. -/
theorem test_sub_alias : nextIs (commandRun (.sub 0 0 0) 2 (loaded 221 0 0)) (holds 0 0 0x00000002) = true := by decide +kernel
/-- V24d: two crossings at once. -/
theorem test_shr1 : nextIs (commandRun (.shr1 2 0) 2 (loaded (2 ^ 128 + 2 ^ 64 + 1) 0 0))
    (holds 2 (2 ^ 127 + 2 ^ 63) 0x00000002) = true := by decide +kernel
/-- V27: the first word drawn lands in word 0, the last in word 7. -/
theorem test_randc : nextIs (commandRun (.randc 0) 10 { State.reset with source := [2, 0, 0, 0, 0, 0, 0, 4, 9] })
    (fun s => holds 0 (2 ^ 511 + 4 * 2 ^ 448 + 3) 0x00000002 s && decide (s.source = [9] ∧ s.ridx = 8)) = true := by
  decide +kernel
/-- V25, with seven words delivered: BUSY until the eighth comes. -/
theorem test_randc_waits : nextIs (commandRun (.randc 0) 20 { State.reset with source := List.replicate 7 0 })
    (fun s => decide (s.statusWord = 0x00000001 ∧ s.ridx = 7)) = true := by decide +kernel
/-- V36: the product does not fit 512 bits. -/
theorem test_mulmod : nextIs (commandRun (.mulmod 3 0 1 2) 2 (loaded (2 ^ 256) (2 ^ 256) allBits)) (holds 3 1 0x00000002) = true := by
  decide +kernel
/-- Section 2.6, aliasing: the modulus register is overwritten with the result from the latched 5. -/
theorem test_mulmod_alias : nextIs (commandRun (.mulmod 2 0 1 2) 2 (loaded 7 8 5)) (holds 2 1 0x00000002) = true := by
  decide +kernel
/-- V50. -/
theorem test_powmod : nextIs (commandRun (.powmod 3 0 1 2) 2 (loaded 4 13 497)) (holds 3 445 0x00000002) = true := by
  decide +kernel
/-- V57: exponent 0, modulus 1. -/
theorem test_powmod_zero_exponent : nextIs (commandRun (.powmod 3 0 1 2) 2 (loaded 5 0 1)) (holds 3 1 0x00000002) = true := by
  decide +kernel
/-- V42, the last step: 174 is a liar for 221, the only round passes. -/
theorem test_mrtest_liar : nextIs (exec (.mrtest 0) (testingState .roundInProgress (flight221 1 (smallDraw 172))))
    (fun s => decide (s.statusWord = 0x00000442)) = true := by decide +kernel
/-- V43, the last step: 137 is a witness. -/
theorem test_mrtest_witness : nextIs (exec (.mrtest 0) (testingState .roundInProgress (flight221 1 (smallDraw 135))))
    (fun s => decide (s.statusWord = 0x00000582)) = true := by decide +kernel

/-! ## Shared operations -/

/-- L8: 220 = 55 · 2^2. -/
theorem test_decompose : decompose 220 = (55, 2) := by decide +kernel
/-- V46 and V47a: 2 detects 561, 50 does not. -/
theorem test_round_561 : roundWith 561 560 35 4 2 = some false ∧ roundWith 561 560 35 4 50 = some true := by decide +kernel
/-- V47f, round 3: the draw of all ones. -/
theorem test_witness : witness allBits (2 ^ 511 + 110) = some (2 ^ 511 - 108) := by decide +kernel
/-- V73: a partly written register: the written byte decides EVEN, whatever the rest reads as. -/
theorem test_partly_written : isEven ((State.reset.writeByte 0x03F 0xDD).view 0) = false := by
  simp [isEven, State.view, State.writeByte, State.reset, opmemReg, opmemOffset, Reg.withByte, Reg.under, setByte, byteMask,
    byteShift, allBits]
/-- V72: offset 0 is the most significant byte. -/
theorem test_write_byte : (State.reset.writeByte 0x1C0 0x80).regs[7].value = 2 ^ 511 := by decide +kernel
/-- V70: the least significant byte is at offset 63. -/
theorem test_get_byte : getByte 221 63 = 0xDD ∧ getByte 221 62 = 0 := by decide +kernel
/-- V69c: bits 31:16 of a write to ROUNDS are ignored. -/
theorem test_set_rounds : (State.reset.setRounds 0x12340003).csrValue 2 = 0x00000003 := by decide +kernel
/-- V76: flags persist; the illegal word of V63 clears DONE and sets ILL only. -/
theorem test_illegal_status : { State.reset with
    status := ⟨true, .greater, true, true, .composite, .composite, false⟩ }.statusWord = 0x000005B6 ∧
    { State.reset with
    status := ⟨true, .greater, true, true, .composite, .composite, false⟩ }.illegal.statusWord = 0x00000DB4 := by
  decide +kernel
/-- Every row's word is accepted as the first command after reset: CMD holds it, BUSY = 1. -/
theorem test_first_command : ([0x01500000, 0x02100000, 0x03001000, 0x04020000, 0x05201000, 0x06220000, 0x07000000, 0x08301200,
    0x09301200, 0x0A000000].all fun w => nextIs (step (State.reset.withFetchWord 32 w))
      (fun s => decide (s.cmd = BitVec.ofNat 32 w) && s.busy)) = true := by decide +kernel
/-- `LDI` and `LDS` are 64 byte writes, and one command, `WAIT` and 8 byte writes (rule R115). -/
theorem test_scripts : (ldiScript 1 0).length = 64 ∧ (ldsScript 1 221 []).length = 10 ∧
    (ldsScript 0 221 []).getLast? = some (.host (.memWrite 0x03F 0xDD)) := by decide +kernel
/-- `WAIT` goes on at STATUS 0x00000002 and 0x00000DB4 (V76), and polls again at 0x00000001 and after reset (rule R115). -/
theorem test_wait : waitOver 0x00000002 = true ∧ waitOver 0x00000DB4 = true ∧ waitOver 0x00000001 = false ∧
    nextIs (step { State.reset with agenda := [.wait [⟨[], 2⟩], .reset] })
      (fun s => decide (s.agenda = [.engine, .engine, .wait [], .reset] ∧ s.returned = [.word 0])) = true := by
  decide +kernel
/-- V68: the run of `ZERO R5; WAIT` ends after a poll that finds BUSY, the complete step and a poll that finds DONE. -/
theorem test_host_run : nextIs (runSteps 4 (State.ofScript (issueAndWait (.zero 5) [])))
    (fun s => decide (s.agenda = []) && !s.busy && decide (s.observe.returned = [.word 0x00000001, .word 0x00000002]) &&
      decide (s.observe.cmd = 0x01500000)) = true := by decide +kernel
/-- A byte read while BUSY = 1 is not observed (rule R267). -/
theorem test_not_observed : nextIs (step { State.reset.acceptD (.zero 0) with agenda := [.host (.memRead 0)] })
    (fun s => decide (s.returned.length = 1 ∧ s.observe.returned = [])) = true := by decide +kernel
/-- V64 in R267's terms: the run of an illegal word is one step. -/
theorem test_illegal_run (k : Nat) : wordRun 0x01800000 (k + 1) State.reset = .next State.reset.illegal :=
  wordRun_illegal _ .registerOutOfRange k _ rfl (by decide)
/-- Rule R254: the copy of a register nothing has written is fully written and not initialised; 64 host writes initialise. -/
theorem test_initialised : nextIs (commandRun (.copy 1 5) 2 (loaded 1 2 3))
    (fun s => decide ((s.regs[1]).written = allBits) && !s.initialised 1) = true ∧
    nextIs (commandRun (.copy 1 0) 2 (loaded 1 2 3)) (fun s => s.initialised 1) = true ∧
    ((List.range 64).foldl (fun u o => u.writeByte (opmemAddr 1 o) 0) (State.reset.setReg 1 5 false)).initialised 1 = true := by
  decide +kernel
/-- A pull from an empty source changes nothing (rule R88). -/
theorem test_pull_waits (s : State) (f : Flight) (h : s.source = []) : s.pull f = s := by simp [State.pull, h]
/-- V47b as one function: 16 words, Composite. -/
theorem test_function : millerRabin 221 2 (smallDraw 172 ++ smallDraw 135) = some (false, 16) := by decide +kernel

/-! ## Witnesses: states and operands that meet the hypotheses of each statement -/

/-- A SUB in flight. -/
def subFlight : Flight := Flight.latched (.sub 2 0 1) 5 7 0 0 true

/-- Busy with that SUB. -/
def busyState : State := { State.reset with flight := some subFlight, cmd := encode (.sub 2 0 1) }

theorem flight221_decomposed (rs : BitVec 16) (draws : List Limb) : (flight221 rs draws).Decomposed := by
  have h : (flight221 0 []).Decomposed :=
    ⟨by decide +kernel, by decide +kernel, by decide +kernel, by decide +kernel, by decide +kernel⟩
  exact ⟨h.1, h.2, h.3, h.4, h.5⟩

theorem witness_quiescent : State.reset.quiescent ∧ (loaded 1 2 3).quiescent := ⟨rfl, rfl⟩
theorem witness_EncodeInvertsDecode : decode 0x05201000 = .ok (.sub 2 0 1) := by decide
theorem witness_StepRunsTheDecodedCommand_offer :
    (State.reset.withFetchWord 32 0x05201000).agenda = [.host (.csrWrite 0 0x05201000)] ∧
    (State.reset.withFetchWord 32 0x05201000).quiescent ∧ decode 0x05201000 = .ok (.sub 2 0 1) :=
  ⟨by decide, rfl, by decide⟩
theorem witness_StepRunsTheDecodedCommand_turn :
    { busyState with agenda := [.engine] }.agenda = [.engine] ∧ { busyState with agenda := [.engine] }.flight = some subFlight ∧
    busyState.agenda = [] ∧ busyState.flight = some subFlight := ⟨rfl, rfl, rfl, rfl⟩
theorem witness_IdleEngineKeepsItsState : State.reset.agenda = [] ∧ State.reset.quiescent ∧
    { State.reset with agenda := [.engine] }.agenda = [.engine] ∧ { State.reset with agenda := [.engine] }.quiescent :=
  ⟨rfl, rfl, rfl, rfl⟩
theorem witness_ResetAbandonsTheCommand : { busyState with agenda := [.reset] }.agenda = [.reset] ∧
    { busyState with agenda := [.reset] }.busy = true := ⟨rfl, rfl⟩
theorem witness_AcceptLatchesTheSources : State.reset.quiescent ∧ (sources (.mulmod 3 0 1 2))[0]? = some 0 ∧
    (sources (.mulmod 3 0 1 2))[1]? = some 1 ∧ (sources (.mulmod 3 0 1 2))[2]? = some 2 ∧ isMrtest (.mrtest 7) = true :=
  ⟨rfl, rfl, rfl, rfl, rfl⟩
theorem witness_IllegalWordSetsIll : (State.reset.withFetchWord 32 0x0B000000).agenda = [.host (.csrWrite 0 0x0B000000)] ∧
    (State.reset.withFetchWord 32 0x0B000000).quiescent ∧ decode 0x0B000000 = .error .unassignedOpcode :=
  ⟨by decide, rfl, by decide⟩
theorem witness_BusyWindowIgnoresTheHost : busyState.busy = true ∧
    { busyState with agenda := [.host (.csrWrite 0 0x01000000)] }.agenda = [.host (.csrWrite 0 0x01000000)] ∧
    { busyState with agenda := [.host (.csrWrite 15 0)] }.agenda = [.host (.csrWrite 15 0)] ∧
    { busyState with agenda := [.host (.memWrite 0x1FF 1)] }.agenda = [.host (.memWrite 0x1FF 1)] ∧
    { busyState with agenda := [.host (.memRead 0)] }.agenda = [.host (.memRead 0)] := ⟨rfl, rfl, rfl, rfl, rfl⟩
theorem witness_OnlyTheEngineWritesFlags :
    Event.deliver 5 ≠ .engine ∧ Event.deliver 5 ≠ .reset ∧ (∀ v, Event.deliver 5 ≠ .host (.csrWrite 0 v)) ∧
    step { busyState with agenda := [.deliver 5] } = .next (busyState.deliver 5) := ⟨nofun, nofun, nofun, rfl⟩
theorem witness_ResultDependsOnLatchesOnly : busyState.flight = some subFlight ∧
    { busyState with regs := (loaded 1 2 3).regs }.flight = some subFlight ∧ subFlight.instr = .sub 2 0 1 ∧
    busyState.status.phase = { busyState with regs := (loaded 1 2 3).regs }.status.phase ∧
    busyState.source = { busyState with regs := (loaded 1 2 3).regs }.source := ⟨rfl, rfl, rfl, rfl, rfl⟩
theorem witness_exec_next : exec (.sub 2 0 1) busyState = .next
    (((busyState.setReg 2 (difference 5 7) true).setBorrow (borrowOut 5 7)).complete) ∧
    exec (.mrtest 0) State.reset = .next (State.reset.acceptMrtest 0) := ⟨rfl, rfl⟩
theorem witness_CompareIsATotalOrder : compareWords 1 2 = .less ∧ compareWords 2 3 = .less := by decide +kernel
theorem witness_SubSubtractsWithBorrow : (loaded 5 5 0).quiescent ∧ ((loaded 5 5 0).view 1).toNat ≤ ((loaded 5 5 0).view 0).toNat ∧
    ((loaded 5 6 0).view 0).toNat < ((loaded 5 6 0).view 1).toNat := ⟨rfl, by decide +kernel, by decide +kernel⟩
theorem witness_RepeatedShiftDividesByPowersOfTwo : isEven 220 = true := by decide +kernel
theorem witness_RandcBuildsACandidate : { State.reset with source := smallDraw 2 }.quiescent ∧ (smallDraw 2).length = 8 ∧
    { State.reset with source := smallDraw 2 }.source = smallDraw 2 ++ [] := ⟨rfl, rfl, rfl⟩
/-- RANDC in flight with so many words drawn. -/
def randcState (draws source : List Limb) : State :=
  { State.reset with flight := some { Flight.latched (.randc 0) 0 0 0 0 true with draws := draws }, source := source }
theorem witness_RandcCompletesOddAndFullWidth :
    (randcState (smallDraw 2) []).flight = some { Flight.latched (.randc 0) 0 0 0 0 true with draws := smallDraw 2 } ∧
    ({ Flight.latched (.randc 0) 0 0 0 0 true with draws := smallDraw 2 } : Flight).instr = .randc 0 ∧ (smallDraw 2).length = 8 :=
  ⟨rfl, rfl, rfl⟩
theorem witness_PullWaitsForTheSource_randc : (randcState [] []).source = [] ∧ (randcState [] [7]).source = 7 :: [] ∧
    { randcState [] [7] with agenda := [.deliver 9] }.agenda = [.deliver 9] ∧
    (randcState [] []).flight = some { Flight.latched (.randc 0) 0 0 0 0 true with draws := [] } := ⟨rfl, rfl, rfl, rfl⟩
theorem witness_PullWaitsForTheSource_mrtest :
    (testingState .roundInProgress (flight221 1 [0, 0, 0, 0, 0, 0, 0])).status.phase = .roundInProgress ∧
    (flight221 1 [0, 0, 0, 0, 0, 0, 0]).instr = .mrtest 0 ∧ (flight221 1 [0, 0, 0, 0, 0, 0, 0]).draws.length < 8 ∧
    (testingState .roundInProgress (flight221 1 [0, 0, 0, 0, 0, 0, 0])).flight = some (flight221 1 [0, 0, 0, 0, 0, 0, 0]) ∧
    (testingState .roundInProgress (flight221 1 [0, 0, 0, 0, 0, 0, 0])).source = [] := ⟨rfl, rfl, by decide, rfl, rfl⟩
theorem witness_nonzero_modulus : (loaded 7 8 1).quiescent ∧ (loaded 7 8 1).view 2 ≠ 0 ∧ (loaded 7 0 1).view 1 = 0 ∧
    (loaded 7 8 1).view 1 ≠ 0 := ⟨rfl, by decide +kernel, by decide +kernel, by decide +kernel⟩
theorem witness_ZeroModulusNeverCompletes : (loaded 7 8 0).quiescent ∧ (loaded 7 8 0).view 2 = 0 := ⟨rfl, by decide +kernel⟩
theorem witness_RepeatedSubtractionReduces : 0 < 5 ∧ 10 < 56 / 5 := by decide
theorem witness_modulus_one : (1 : Word) ≠ 0 := by decide +kernel
theorem witness_MrtestRejects :
    (testingState .start { flight221 1 [] with opA := 2 }).status.phase = .start ∧
    (testingState .start { flight221 1 [] with opA := 2 }).flight = some { flight221 1 [] with opA := 2 } ∧
    ({ flight221 1 [] with opA := 2 } : Flight).opA.toNat % 2 = 0 ∧ ({ flight221 1 [] with opA := 1 } : Flight).opA.toNat = 1 :=
  ⟨rfl, rfl, by decide +kernel, by decide +kernel⟩
theorem witness_MrtestDecomposes : (testingState .start (flight221 1 [])).status.phase = .start ∧
    (testingState .start (flight221 1 [])).flight = some (flight221 1 []) ∧ (flight221 1 []).opA.toNat % 2 = 1 ∧
    3 ≤ (flight221 1 []).opA.toNat ∧ 3 ≤ ({ flight221 1 [] with opA := 3 } : Flight).opA.toNat := ⟨rfl, rfl, by decide +kernel, by decide +kernel, by decide +kernel⟩
theorem witness_MrtestBeginsRounds : (testingState .decomposed (flight221 0 [])).flight = some (flight221 0 []) ∧
    (testingState .decomposed (flight221 0 [])).status.phase = .decomposed ∧ (flight221 0 []).passed = 0 ∧
    (flight221 0 []).rs = 0 ∧ (flight221 1 []).rs ≠ 0 := ⟨rfl, rfl, rfl, rfl, by decide⟩
/-- A passing draw (through the squaring), last round or not, and a failing draw. -/
theorem witness_MrtestDecidesARound : (flight221 1 (smallDraw 172)).Decomposed ∧ (flight221 1 (smallDraw 172)).draws.length = 8 ∧
    (testingState .roundInProgress (flight221 1 (smallDraw 172))).flight = some (flight221 1 (smallDraw 172)) ∧
    (testingState .roundInProgress (flight221 1 (smallDraw 172))).status.phase = .roundInProgress ∧
    limbsValue (smallDraw 172) % (221 - 2) + 2 = 174 ∧ limbsValue (smallDraw 135) % (221 - 2) + 2 = 137 ∧
    (1 ≤ 1 ∧ 1 ≤ (flight221 1 []).sh - 1 ∧ (174 ^ 55 % 221) ^ 2 ^ 1 % 221 = 221 - 1) ∧
    (flight221 1 []).passed + 1 = (flight221 1 []).rs.toNat ∧ (flight221 2 []).passed + 1 ≠ (flight221 2 []).rs.toNat ∧
    ¬ (137 ^ 55 % 221 = 1 ∨ 137 ^ 55 % 221 = 221 - 1 ∨
      ∃ q, 1 ≤ q ∧ q ≤ (flight221 1 []).sh - 1 ∧ (137 ^ 55 % 221) ^ 2 ^ q % 221 = 221 - 1) := by
  refine ⟨flight221_decomposed _ _, rfl, rfl, rfl, by decide +kernel, by decide +kernel, by decide +kernel, by decide, by decide, ?_⟩
  rintro (h | h | ⟨q, h1, h2, h3⟩)
  · exact absurd h (by decide +kernel)
  · exact absurd h (by decide +kernel)
  · have hq : q = 1 := Nat.le_antisymm h2 h1
    subst hq
    exact absurd h3 (by decide +kernel)
theorem witness_MinusOnePassesEveryRound : (flight221 1 (smallDraw 218)).Decomposed ∧ limbsValue (smallDraw 218) < 2 ^ 512 ∧
    limbsValue (smallDraw 218) % (221 - 2) = 221 - 3 := ⟨flight221_decomposed _ _, by decide +kernel, by decide +kernel⟩
theorem witness_MrtestFollowsItsFunction :
    { loaded 221 0 0 with rounds := 1, source := smallDraw 172 }.quiescent ∧
    millerRabin ({ loaded 221 0 0 with rounds := 1, source := smallDraw 172 }.view 0).toNat 1 (smallDraw 172) = some (true, 8) ∧
    millerRabin ((loaded 2 0 0).view 0).toNat 10 [] = some (false, 0) := ⟨rfl, by decide +kernel, by decide +kernel⟩
theorem witness_MrtestPassesEveryPrime : { loaded 3 0 0 with rounds := 1, source := smallDraw 0 }.quiescent ∧
    ({ loaded 3 0 0 with rounds := 1, source := smallDraw 0 }.view 0).toNat.Prime ∧
    3 ≤ ({ loaded 3 0 0 with rounds := 1, source := smallDraw 0 }.view 0).toNat ∧
    8 * { loaded 3 0 0 with rounds := 1, source := smallDraw 0 }.rounds.toNat ≤ (smallDraw 0).length := by
  have h : ({ loaded 3 0 0 with rounds := 1, source := smallDraw 0 }.view 0).toNat = 3 := by decide +kernel
  rw [h]
  exact ⟨rfl, Nat.prime_three, by decide, by decide⟩
/-- MRTEST accepted, an engine turn next. -/
def acceptedState : State := { State.reset with agenda := [.engine] }.acceptMrtest 0

theorem witness_PhaseNeverGoesBackwards : MachineInv acceptedState ∧ acceptedState.status.phase.testing = true ∧
    acceptedState.agenda = [.engine] ∧ ∃ t, step acceptedState = .next t := by
  refine ⟨⟨State.reset_canonical, State.reset_initialisedIsWritten, ?_, ?_, ?_, ?_, ?_, rfl, ?_, ?_⟩, rfl, rfl, ?_⟩
  · simp [acceptedState]
  · simp [acceptedState]
  · rintro f h; cases h; rfl
  · rintro f h; cases h; simp
  · simp [acceptedState, isMrtest]
  · simp [acceptedState]
  · simp [acceptedState]
  · exact ⟨_, rfl⟩
theorem witness_EveryCommandCompletes : { loaded 1 2 3 with rounds := 1, source := smallDraw 0 }.quiescent ∧
    8 ≤ (smallDraw 0).length ∧ 8 * (1 : BitVec 16).toNat ≤ (smallDraw 0).length ∧
    { loaded 1 2 3 with rounds := 1, source := smallDraw 0 }.view 2 ≠ 0 :=
  ⟨rfl, by decide, by decide, by decide +kernel⟩
theorem witness_host_transactions :
    { State.reset with agenda := [.host (.memRead 0x1FF)] }.agenda = [.host (.memRead 0x1FF)] ∧
    { State.reset with agenda := [.host (.memWrite 0x000 0xAA)] }.agenda = [.host (.memWrite 0x000 0xAA)] ∧
    { State.reset with agenda := [.host (.csrRead 3)] }.agenda = [.host (.csrRead 3)] ∧
    { State.reset with agenda := [.host (.csrWrite 2 5)] }.agenda = [.host (.csrWrite 2 5)] ∧ (2 : Fin 16) ≠ 0 ∧
    { State.reset with agenda := [.host (.memRead 0x1FF)] }.quiescent ∧
    { State.reset with agenda := [.host (.memWrite 0x000 0xAA)] }.quiescent ∧
    { State.reset with agenda := [.host (.csrWrite 2 5)] }.quiescent := ⟨rfl, rfl, rfl, rfl, by decide, rfl, rfl, rfl⟩
/-- V71: the bytes 0x00 to 0x3F. -/
theorem witness_SixtyFourByteWritesRoundTrip : ((List.range 64).map (BitVec.ofNat 8)).length = 64 ∧
    { State.reset with
      agenda := writeScript 1 ((List.range 64).map (BitVec.ofNat 8)) ++ rdvScript 1 ++ [] }.quiescent ∧
    { loaded 1 2 3 with agenda := rdvScript 1 ++ [] }.quiescent ∧
    (({ loaded 1 2 3 with agenda := rdvScript 1 ++ [] } : State).regs[1]).written = allBits :=
  ⟨by decide, rfl, rfl, by decide +kernel⟩
theorem witness_LdiLoadsTheValue : { State.reset with agenda := ldiScript 1 221 }.quiescent ∧
    { State.reset with agenda := ldiScript 1 221 }.agenda = ldiScript 1 221 ++ [] ∧
    { State.reset with agenda := [.wait []] }.agenda = [.wait []] ∧ State.reset.status.done = false ∧
    State.reset.status.ill = false ∧ State.reset.illegal.status.ill = true ∧
    { State.reset with agenda := ldsScript 1 221 [⟨[7], 0⟩] }.quiescent ∧
    { State.reset with agenda := ldsScript 1 221 [⟨[7], 0⟩] }.agenda = ldsScript 1 221 [⟨[7], 0⟩] ++ [] :=
  ⟨rfl, by simp, rfl, rfl, rfl, rfl, rfl, by simp⟩
theorem witness_UnwrittenBitsAreFree : 511 < 512 ∧ (State.reset.regs[0]).written.getLsbD 511 = false ∧
    ((loaded 1 2 3).regs[0]).written.getLsbD 511 = true := ⟨by decide +kernel, by decide +kernel, by decide +kernel⟩
theorem witness_invariant : MachineInv State.reset ∧ step State.reset = .next State.reset := by
  have idle : ∀ f, State.reset.flight ≠ some f := fun _ => Option.some_ne_none _ |>.symm
  exact ⟨⟨State.reset_canonical, State.reset_initialisedIsWritten, by decide, nofun, fun f h => absurd h (idle f), fun f h => absurd h (idle f),
    ⟨nofun, fun ⟨f, h, _⟩ => absurd h (idle f)⟩, rfl, fun f h => absurd h (idle f), fun f h => absurd h (idle f)⟩, rfl⟩

end Sys2Proof.Machine.Tests
end

section
/-! SUPPORT. What the events that are not the engine's leave unchanged (rules R14, R79). -/

namespace Sys2Proof.Machine

/-- What only the engine writes is the same in `t` as in `s`: STATUS, CMD, the command in flight, the words pulled
(rule R14). -/
def EngineKept (s t : State) : Prop :=
  t.status = s.status ∧ t.cmd = s.cmd ∧ t.flight = s.flight ∧ t.ridx = s.ridx

/-- Everything a host transaction other than a CsrWrite to index 0 can do (rules R74 to R76, R80, R81, R84). -/
theorem hostTransaction_cases {op : HostOp} {s t : State} (hcmd : ∀ v, op ≠ .csrWrite 0 v)
    (h : hostTransaction op s = .next t) :
    t = s ∨ t = s.readFreeByte ∨ (∃ addr, t = s.readByte addr) ∨ (∃ addr b, t = s.writeByte addr b) ∨
      (∃ i, t = s.readCsr i) ∨ ∃ v, t = s.setRounds v := by
  cases op with
  | memRead addr =>
    simp only [hostTransaction] at h
    split at h
    · cases h; exact .inr (.inl rfl)
    · cases h; exact .inr (.inr (.inl ⟨addr, rfl⟩))
  | memWrite addr b =>
    simp only [hostTransaction] at h
    split at h
    · cases h; exact .inl rfl
    · cases h; exact .inr (.inr (.inr (.inl ⟨addr, b, rfl⟩)))
  | csrRead i => cases h; exact .inr (.inr (.inr (.inr (.inl ⟨i, rfl⟩))))
  | csrWrite i v =>
    have hi : i ≠ 0 := fun e => hcmd v (e ▸ rfl)
    rcases csrWrite_cases hi h with rfl | ⟨-, rfl⟩
    · exact .inl rfl
    · exact .inr (.inr (.inr (.inr (.inr ⟨v, rfl⟩))))

/-- Of the host's transactions only the CsrWrite to index 0 touches what the engine writes (rule R79). -/
theorem hostTransaction_engineKept {op : HostOp} {s t : State} (hcmd : ∀ v, op ≠ .csrWrite 0 v)
    (h : hostTransaction op s = .next t) : EngineKept s t := by
  rcases hostTransaction_cases hcmd h with rfl | rfl | ⟨addr, rfl⟩ | ⟨addr, b, rfl⟩ | ⟨i, rfl⟩ | ⟨v, rfl⟩
  all_goals simp [EngineKept]

/-- A poll of a `WAIT` is a read of STATUS (rule R115). -/
theorem waitPoll_engineKept (s : State) (gaps : List Gap) : EngineKept s (s.waitPoll gaps) := by
  obtain ⟨agenda, h⟩ := s.waitPoll_cases gaps
  simp [EngineKept, h]

/-- An event that is neither an engine turn, nor a reset, nor a CsrWrite to index 0 keeps what the engine writes. -/
theorem event_engineKept {e : Event} {s t : State} (hengine : e ≠ .engine) (hreset : e ≠ .reset)
    (hcmd : ∀ v, e ≠ .host (.csrWrite 0 v)) (h : event e s = .next t) : EngineKept s t := by
  cases e with
  | host op => exact hostTransaction_engineKept (fun v e => hcmd v (e ▸ rfl)) h
  | wait gaps => cases h; exact waitPoll_engineKept s gaps
  | deliver w => cases h; simp [EngineKept]
  | reset => exact absurd rfl hreset
  | engine => exact absurd rfl hengine

/-- Settles O13: the event acts on the state less its agenda entry, which has the same engine fields. -/
theorem onlyTheEngineWritesFlags : Obligations.OnlyTheEngineWritesFlags := by
  intro s t e rest hagenda hengine hreset hcmd hstep
  rw [step_event s e rest hagenda] at hstep
  have kept : EngineKept { s with agenda := rest } t := event_engineKept hengine hreset hcmd hstep
  exact kept

end Sys2Proof.Machine
end

section
/-! SUPPORT. What one step of a command can do, said once for all commands: the accept step, the turn in flight, and the
relation `CommandStep` that holds every case with its guards (rules R108, R109, R196). -/

namespace Sys2Proof.Machine

/-! ## The accept step and the turn of each command -/

/-- The accept step of a command (rule R108), by its format (rule R102). -/
def acceptStep (s : State) (i : Instr) : State :=
  match i with
  | .zero _ => s.acceptD i
  | .copy _ ra => s.acceptA i ra
  | .cmp ra rb => s.acceptAB i ra rb
  | .iseven ra => s.acceptA i ra
  | .sub _ ra rb => s.acceptAB i ra rb
  | .shr1 _ ra => s.acceptA i ra
  | .randc _ => s.acceptD i
  | .mulmod _ ra rb rm => s.acceptABM i ra rb rm
  | .powmod _ ra rb rm => s.acceptABM i ra rb rm
  | .mrtest ra => s.acceptMrtest ra

/-- The next step of a command that is in flight as `f`. -/
def flightTurn (s : State) (f : Flight) : Instr → State
  | .zero rd => (s.setReg rd 0 true).complete
  | .copy rd _ => (s.setReg rd f.opA f.initialised).complete
  | .cmp _ _ => (s.setCmp (compareWords f.opA f.opB)).complete
  | .iseven _ => (s.setEven (isEven f.opA)).complete
  | .sub rd _ _ => ((s.setReg rd (difference f.opA f.opB) f.initialised).setBorrow (borrowOut f.opA f.opB)).complete
  | .shr1 rd _ => (s.setReg rd (shiftRight1 f.opA) f.initialised).complete
  | .randc rd =>
    if f.draws.length < Config.numWords then s.pull f else (s.setReg rd (candidateOf f.draws) true).complete
  | .mulmod rd _ _ _ => s.completeWith rd (mulmod f.opA f.opB f.opM) f.initialised
  | .powmod rd _ _ _ => s.completeWith rd (powmod f.opA f.opB f.opM) f.initialised
  | .mrtest _ => s.mrTurn f

/-- Every command's meaning is `command` of its accept step and its turn. -/
theorem exec_eq_command_flightTurn (i : Instr) (s : State) :
    exec i s = command i s (acceptStep s i) (flightTurn s · i) := by
  cases i <;> rfl

/-- A command in flight takes its turn. -/
theorem exec_inFlight {i : Instr} {s : State} {f : Flight} (hf : s.flight = some f) (hi : f.instr = i) :
    exec i s = .next (flightTurn s f i) := by
  rw [exec_eq_command_flightTurn, command_inFlight i s _ _ f hf hi]

/-- The flight of an MRTEST with the temporaries of its candidate written and no round passed (rule R199). -/
def Flight.withCandidate (f : Flight) (nm1 d : Word) (sh : Nat) : Flight :=
  { f with nm1 := nm1, d := d, sh := sh, passed := 0 }

/-- The flight of an MRTEST whose candidate has been decomposed (rule R199). -/
def Flight.decomposedCandidate (f : Flight) : Flight :=
  f.withCandidate (f.opA - 1) (decompose (f.opA - 1)).1 (decompose (f.opA - 1)).2

/-- Everything the turn at Start can do (rules R198, R199). -/
theorem State.mrStart_cases (s : State) (f : Flight) :
    ((isEven f.opA = true ∨ f.opA = 1) ∧ s.mrStart f = s.completeComposite) ∨
      (¬ (isEven f.opA = true ∨ f.opA = 1) ∧
        s.mrStart f = { s.setPhase .decomposed with flight := some f.decomposedCandidate }) := by
  by_cases h : isEven f.opA = true ∨ f.opA = 1
  · exact .inl ⟨h, if_pos h⟩
  · exact .inr ⟨h, if_neg h⟩

/-! ## Everything a step of a command can do -/

/-- What the complete step of `i` writes beside BUSY and DONE: `u` is `s` with its destination, or its own flag, or, for
MRTEST, VERDICT and PHASE written (rules R32, R46, R109, R212). -/
inductive ResultWritten (i : Instr) (s : State) : State → Prop
  | register {rd : RegIdx} (v : Word) (ok : Bool) (hd : destination i = some rd) : ResultWritten i s (s.setReg rd v ok)
  | comparison {ra rb : RegIdx} (c : CmpResult) (hi : i = .cmp ra rb) : ResultWritten i s (s.setCmp c)
  | parity {ra : RegIdx} (e : Bool) (hi : i = .iseven ra) : ResultWritten i s (s.setEven e)
  | subtraction {rd ra rb : RegIdx} (v : Word) (ok b : Bool) (hi : i = .sub rd ra rb) :
    ResultWritten i s ((s.setReg rd v ok).setBorrow b)
  | prime (hi : isMrtest i = true) : ResultWritten i s ((s.setVerdict .probablyPrime).setPhase .probablyPrime)
  | composite (hi : isMrtest i = true) : ResultWritten i s ((s.setVerdict .composite).setPhase .composite)

/-- One step of command `i`: everything it can do, with what is known of the state before. -/
inductive CommandStep (i : Instr) (s : State) : State → Prop
  /-- Another command is in flight, or the source is empty, or the modulus is 0, or no transition exists (rules R88, R111,
  R174, R196). -/
  | unchanged : CommandStep i s s
  | accept (f : Flight) (hq : s.quiescent) (hi : f.instr = i) (hdraws : f.draws = []) (hmr : isMrtest i = false) :
    CommandStep i s (s.accept f)
  | acceptMrtest (ra : RegIdx) (hq : s.quiescent) (hi : i = .mrtest ra) : CommandStep i s (s.acceptMrtest ra)
  | pull (f : Flight) (w : Limb) (ws : List Limb) (hf : s.flight = some f) (hi : f.instr = i) (hlt : f.draws.length < 8)
    (hsource : s.source = w :: ws) :
    CommandStep i s { s with source := ws, ridx := s.ridx + 1, flight := some { f with draws := f.draws ++ [w] } }
  | decompose (f : Flight) (hf : s.flight = some f) (hi : f.instr = i) (hmr : isMrtest i = true)
    (hp : s.status.phase = .start) (hn : ¬ (isEven f.opA = true ∨ f.opA = 1)) :
    CommandStep i s { s.setPhase .decomposed with flight := some f.decomposedCandidate }
  | beginRound (f : Flight) (k : Nat) (hf : s.flight = some f) (hi : f.instr = i) (hmr : isMrtest i = true)
    (hp : s.status.phase = .decomposed ∧ k = f.passed ∨ s.status.phase = .roundInProgress ∧ k = f.passed + 1)
    (hk : k ≠ f.rs.toNat) :
    CommandStep i s { s.setPhase .roundInProgress with flight := some { f with draws := [], passed := k } }
  | complete (f : Flight) (u : State) (hf : s.flight = some f) (hi : f.instr = i) (hu : ResultWritten i s u) :
    CommandStep i s u.complete

variable {i : Instr} {s : State} {f : Flight}

theorem commandStep_acceptStep (hq : s.quiescent) : CommandStep i s (acceptStep s i) := by
  cases i with
  | mrtest ra => exact .acceptMrtest ra hq rfl
  | zero | copy | cmp | iseven | sub | shr1 | randc | mulmod | powmod => exact .accept _ hq rfl rfl rfl

theorem commandStep_pull (hf : s.flight = some f) (hi : f.instr = i) (hlt : f.draws.length < 8) :
    CommandStep i s (s.pull f) := by
  rcases s.pull_cases f with ⟨-, h⟩ | ⟨w, ws, hsource, h⟩
  · rw [h]; exact .unchanged
  · rw [h]; exact .pull f w ws hf hi hlt hsource

theorem commandStep_completeWith {rd : RegIdx} (v : Option Word) (ok : Bool) (hf : s.flight = some f) (hi : f.instr = i)
    (hd : destination i = some rd) : CommandStep i s (s.completeWith rd v ok) := by
  rcases s.completeWith_cases rd v ok with ⟨-, h⟩ | ⟨x, -, h⟩
  · rw [h]; exact .unchanged
  · rw [h]; exact .complete f _ hf hi (.register x ok hd)

theorem commandStep_mrRoundControl {k : Nat} (hf : s.flight = some f) (hi : f.instr = i) (hmr : isMrtest i = true)
    (hp : s.status.phase = .decomposed ∧ k = f.passed ∨ s.status.phase = .roundInProgress ∧ k = f.passed + 1) :
    CommandStep i s (s.mrRoundControl f k) := by
  rcases s.mrRoundControl_cases f k with ⟨-, h⟩ | ⟨hk, h⟩
  · rw [h]; exact .complete f _ hf hi (.prime hmr)
  · rw [h]; exact .beginRound f k hf hi hmr hp hk

/-- A turn of MRTEST, by the table of rule R196. -/
theorem commandStep_mrTurn (hf : s.flight = some f) (hi : f.instr = i) (hmr : isMrtest i = true) :
    CommandStep i s (s.mrTurn f) := by
  have composite : CommandStep i s s.completeComposite := .complete f _ hf hi (.composite hmr)
  rcases s.mrTurn_cases f with ⟨hp, h⟩ | ⟨hp, h⟩ | ⟨hp, h⟩ | ⟨-, h⟩ <;> rw [h]
  case inl =>
    rcases s.mrStart_cases f with ⟨-, h⟩ | ⟨hn, h⟩ <;> rw [h]
    · exact composite
    · exact .decompose f hf hi hmr hp hn
  case inr.inl => exact commandStep_mrRoundControl hf hi hmr (.inl ⟨hp, rfl⟩)
  case inr.inr.inl =>
    rcases s.mrRound_cases f with ⟨hlt, h⟩ | ⟨-, ⟨-, h⟩ | ⟨-, h⟩ | ⟨-, h⟩⟩ <;> rw [h]
    · exact commandStep_pull hf hi hlt
    · exact commandStep_mrRoundControl hf hi hmr (.inr ⟨hp, rfl⟩)
    · exact composite
    · exact .unchanged
  case inr.inr.inr => exact .unchanged

theorem commandStep_flightTurn (hf : s.flight = some f) (hi : f.instr = i) : CommandStep i s (flightTurn s f i) := by
  cases i with
  | zero | copy | shr1 => exact .complete f _ hf hi (.register _ _ rfl)
  | cmp => exact .complete f _ hf hi (.comparison _ rfl)
  | iseven => exact .complete f _ hf hi (.parity _ rfl)
  | sub => exact .complete f _ hf hi (.subtraction _ _ _ rfl)
  | randc rd =>
    simp only [flightTurn]
    split
    · exact commandStep_pull hf hi ‹_›
    · exact .complete f _ hf hi (.register _ _ rfl)
  | mulmod | powmod => exact commandStep_completeWith _ _ hf hi rfl
  | mrtest => exact commandStep_mrTurn hf hi rfl

/-- The step of a command is one of the cases of `CommandStep`. -/
theorem exec_commandStep {t : State} (h : exec i s = .next t) : CommandStep i s t := by
  rw [exec_eq_command_flightTurn] at h
  rcases command_cases h with ⟨hq, rfl⟩ | ⟨f, hf, hi, rfl⟩ | ⟨f, -, -, rfl⟩
  · exact commandStep_acceptStep hq
  · exact commandStep_flightTurn hf hi
  · exact .unchanged

end Sys2Proof.Machine
end

section
/-! SUPPORT. The invariant: how it is established, with and without a command in flight, and that every step keeps it. -/

namespace Sys2Proof.Machine

/-- The register clauses of the invariant (assumption log 1, 16). -/
structure RegsInv (regs : Vector Reg 8) : Prop where
  canonical : ∀ k : RegIdx, (regs[k]).canonical
  initialisedIsWritten : ∀ k : RegIdx, (regs[k]).initialisedIsWritten

theorem MachineInv.regsInv {s : State} (h : MachineInv s) : RegsInv s.regs := ⟨h.canonical, h.initialisedIsWritten⟩

theorem RegsInv.setReg {s : State} (h : RegsInv s.regs) (k : RegIdx) (v : Word) (ok : Bool) :
    RegsInv (s.setReg k v ok).regs :=
  ⟨s.setReg_canonical k v ok h.canonical, s.setReg_initialisedIsWritten k v ok h.initialisedIsWritten⟩

theorem RegsInv.writeByte {s : State} (h : RegsInv s.regs) (addr : BitVec 9) (b : Byte) :
    RegsInv (s.writeByte addr b).regs :=
  ⟨s.writeByte_canonical addr b h.canonical, s.writeByte_initialisedIsWritten addr b h.initialisedIsWritten⟩

/-- What a complete step writes beside BUSY and DONE keeps the register clauses. -/
theorem RegsInv.resultWritten {i : Instr} {s u : State} (h : RegsInv s.regs) (hu : ResultWritten i s u) :
    RegsInv u.regs := by
  cases hu with
  | register v ok | subtraction v ok => exact h.setReg _ v ok
  | comparison | parity | prime | composite => exact h

/-! ## The invariant with and without a command in flight -/

/-- Without a command in flight only the clauses about the registers and STATUS say something. -/
theorem machineInv_of_quiescent {s : State} (hq : s.quiescent) (hregs : RegsInv s.regs)
    (hexcl : ¬ (s.status.done = true ∧ s.status.ill = true)) (htesting : s.status.phase.testing = false)
    (hverdict : s.status.verdict = s.status.phase.verdict) : MachineInv s where
  canonical := hregs.canonical
  initialisedIsWritten := hregs.initialisedIsWritten
  notDoneAndIll := hexcl
  busy := by simp [not_busy_of_quiescent hq]
  latch := by simp [hq]
  draws := by simp [hq]
  testing := by simp [hq, htesting]
  verdict := hverdict
  decomposed := by simp [hq]
  inRound := by simp [hq]

/-- With the command `f` in flight the clauses speak of `f`. -/
theorem machineInv_of_inFlight {s : State} {f : Flight} (hf : s.flight = some f) (hregs : RegsInv s.regs)
    (hdone : s.status.done = false) (hill : s.status.ill = false) (hlatch : s.cmd = encode f.instr)
    (hdraws : f.draws.length ≤ 8) (htesting : s.status.phase.testing = isMrtest f.instr)
    (hverdict : s.status.verdict = s.status.phase.verdict)
    (hdecomposed : s.status.phase = .decomposed → f.Decomposed ∧ f.passed = 0)
    (hround : s.status.phase = .roundInProgress → f.Decomposed ∧ f.passed < f.rs.toNat) : MachineInv s where
  canonical := hregs.canonical
  initialisedIsWritten := hregs.initialisedIsWritten
  notDoneAndIll := by simp [hdone]
  busy := fun _ => ⟨hdone, hill⟩
  latch := by simpa [hf] using hlatch
  draws := by simpa [hf] using hdraws
  testing := by simp [hf, htesting]
  verdict := hverdict
  decomposed := by simpa [hf] using hdecomposed
  inRound := by simpa [hf] using hround

/-- No clause speaks of ROUNDS, the source, the agenda, the reads or the counter of free values. -/
theorem MachineInv.of_engineKept {s t : State} (h : MachineInv s) (hregs : RegsInv t.regs) (kept : EngineKept s t) :
    MachineInv t := by
  obtain ⟨hstatus, hcmd, hflight, -⟩ := kept
  have hbusy : t.busy = s.busy := by simp only [State.busy, hflight]
  constructor
  case canonical => exact hregs.canonical
  case initialisedIsWritten => exact hregs.initialisedIsWritten
  case notDoneAndIll => simpa only [hstatus] using h.notDoneAndIll
  case busy => simpa only [hstatus, hbusy] using h.busy
  case latch => simpa only [hcmd, hflight] using h.latch
  case draws => simpa only [hflight] using h.draws
  case testing => simpa only [hstatus, hflight] using h.testing
  case verdict => simpa only [hstatus] using h.verdict
  case decomposed => simpa only [hstatus, hflight] using h.decomposed
  case inRound => simpa only [hstatus, hflight] using h.inRound

section
variable {s : State} {f : Flight}

/-- In flight, PHASE is 1 to 3 exactly if the command is MRTEST. -/
theorem MachineInv.testing_eq (h : MachineInv s) (hf : s.flight = some f) :
    s.status.phase.testing = isMrtest f.instr := by
  rw [Bool.eq_iff_iff, h.testing]
  simp [hf]

theorem MachineInv.not_testing_of_quiescent (h : MachineInv s) (hq : s.quiescent) : s.status.phase.testing = false := by
  have := h.testing
  simpa [hq] using this

theorem MachineInv.done_ill (h : MachineInv s) (hf : s.flight = some f) :
    s.status.done = false ∧ s.status.ill = false := h.busy (busy_of_inFlight hf)

/-! ## The steps of a command -/

theorem Phase.ne_of_not_testing {p q : Phase} (hp : p.testing = false) (hq : q.testing = true) : p ≠ q := by
  rintro rfl
  simp [hp] at hq

/-- The accept step of a command other than MRTEST leaves PHASE and VERDICT as they were, with no test in flight. -/
theorem MachineInv.accept (h : MachineInv s) (hq : s.quiescent) (hmr : isMrtest f.instr = false) (hdraws : f.draws = []) :
    MachineInv (s.accept f) := by
  have idle := h.not_testing_of_quiescent hq
  refine machineInv_of_inFlight rfl h.regsInv rfl rfl rfl (by simp [hdraws]) (idle.trans hmr.symm) h.verdict
    (fun hp => ?_) (fun hp => ?_)
  · exact absurd hp (Phase.ne_of_not_testing idle rfl)
  · exact absurd hp (Phase.ne_of_not_testing idle rfl)

theorem MachineInv.acceptMrtest (h : MachineInv s) (ra : RegIdx) : MachineInv (s.acceptMrtest ra) :=
  machineInv_of_inFlight rfl h.regsInv rfl rfl rfl (Nat.zero_le 8) rfl rfl nofun nofun

/-- The draws are no part of what is known of the candidate. -/
theorem Flight.Decomposed.withDraws (h : f.Decomposed) (draws : List Limb) : { f with draws := draws }.Decomposed :=
  ⟨h.odd, h.atLeast3, h.pred, h.oddPart, h.product⟩

theorem MachineInv.pull (h : MachineInv s) (hf : s.flight = some f) (hlt : f.draws.length < 8) (w : Limb)
    (ws : List Limb) :
    MachineInv { s with source := ws, ridx := s.ridx + 1, flight := some { f with draws := f.draws ++ [w] } } := by
  obtain ⟨hdone, hill⟩ := h.done_ill hf
  have htesting := h.testing_eq hf
  refine machineInv_of_inFlight rfl h.regsInv hdone hill (h.latch f hf) ?_ htesting h.verdict
    (fun hp => ?_) (fun hp => ?_)
  · simpa using hlt
  · obtain ⟨hdec, hpassed⟩ := h.decomposed f hf hp
    exact ⟨hdec.withDraws _, hpassed⟩
  · obtain ⟨hdec, hpassed⟩ := h.inRound f hf hp
    exact ⟨hdec.withDraws _, hpassed⟩

theorem Flight.withCandidate_decomposed {nm1 d : Word} {sh : Nat} (odd : f.opA.toNat % 2 = 1) (atLeast3 : 3 ≤ f.opA.toNat)
    (pred : nm1.toNat = f.opA.toNat - 1) (oddPart : d.toNat % 2 = 1) (product : d.toNat * 2 ^ sh = f.opA.toNat - 1) :
    (f.withCandidate nm1 d sh).Decomposed :=
  ⟨odd, atLeast3, pred, oddPart, product⟩

/-- A candidate that Start does not reject is odd and at least 3, and is decomposed (rules R198 to R200). -/
theorem Flight.decomposedCandidate_decomposed (hn : ¬ (isEven f.opA = true ∨ f.opA = 1)) :
    f.decomposedCandidate.Decomposed := by
  have one : (1 : Word).toNat = 1 := BitVec.toNat_one (by decide)
  have odd : f.opA.toNat % 2 = 1 := by
    simpa [isEven, BitVec.getLsbD, Nat.testBit_zero] using (not_or.mp hn).1
  have ne_one : f.opA.toNat ≠ 1 := fun e => hn (.inr (BitVec.eq_of_toNat_eq (e.trans one.symm)))
  have one_lt : 1 < f.opA.toNat := by omega
  have atLeast3 : 3 ≤ f.opA.toNat := by omega
  have pred : (f.opA - 1).toNat = f.opA.toNat - 1 := by
    rw [BitVec.toNat_sub_of_le (by rw [BitVec.le_def, one]; exact one_lt.le), one]
  obtain ⟨oddPart, product⟩ := decompose_spec (f.opA - 1) (by rw [pred]; exact Nat.sub_pos_of_lt one_lt)
  exact withCandidate_decomposed odd atLeast3 pred oddPart (product.trans pred)

theorem MachineInv.withCandidate (h : MachineInv s) (hf : s.flight = some f) (hmr : isMrtest f.instr = true)
    (hp : s.status.phase = .start) {nm1 d : Word} {sh : Nat} (hdec : (f.withCandidate nm1 d sh).Decomposed) :
    MachineInv { s.setPhase .decomposed with flight := some (f.withCandidate nm1 d sh) } := by
  obtain ⟨hdone, hill⟩ := h.done_ill hf
  have hverdict : s.status.verdict = .none := by rw [h.verdict, hp]; rfl
  exact machineInv_of_inFlight rfl h.regsInv hdone hill (h.latch f hf) (h.draws f hf) hmr.symm hverdict
    (fun _ => ⟨hdec, rfl⟩) nofun

/-- Round control begins a round with the rounds passed still below the count sampled (rules R201, R203). -/
theorem MachineInv.beginRound (h : MachineInv s) (hf : s.flight = some f) (hmr : isMrtest f.instr = true) {k : Nat}
    (hp : s.status.phase = .decomposed ∧ k = f.passed ∨ s.status.phase = .roundInProgress ∧ k = f.passed + 1)
    (hk : k ≠ f.rs.toNat) :
    MachineInv { s.setPhase .roundInProgress with flight := some { f with draws := [], passed := k } } := by
  obtain ⟨hdone, hill⟩ := h.done_ill hf
  have known : f.Decomposed ∧ k < f.rs.toNat ∧ s.status.verdict = .none := by
    rcases hp with ⟨hp, rfl⟩ | ⟨hp, rfl⟩
    · obtain ⟨hdec, hpassed⟩ := h.decomposed f hf hp
      exact ⟨hdec, by omega, by rw [h.verdict, hp]; rfl⟩
    · obtain ⟨hdec, hpassed⟩ := h.inRound f hf hp
      exact ⟨hdec, by omega, by rw [h.verdict, hp]; rfl⟩
  obtain ⟨hdec, hlt, hverdict⟩ := known
  exact machineInv_of_inFlight rfl h.regsInv hdone hill (h.latch f hf) (Nat.zero_le 8) hmr.symm hverdict nofun
    fun _ => ⟨⟨hdec.odd, hdec.atLeast3, hdec.pred, hdec.oddPart, hdec.product⟩, hlt⟩

theorem not_mrtest_of_destination {i : Instr} {rd : RegIdx} (hd : destination i = some rd) : isMrtest i = false := by
  cases i with
  | mrtest ra => cases hd
  | zero | copy | cmp | iseven | sub | shr1 | randc | mulmod | powmod => rfl

/-- A complete step writes VERDICT and PHASE together, for MRTEST only, and leaves DONE and ILL to the common part. -/
theorem ResultWritten.status_cases {i : Instr} {u : State} (hu : ResultWritten i s u) :
    u.status.ill = s.status.ill ∧
      ((isMrtest i = false ∧ u.status.verdict = s.status.verdict ∧ u.status.phase = s.status.phase) ∨
        (isMrtest i = true ∧ u.status.verdict = u.status.phase.verdict ∧ u.status.phase.testing = false)) := by
  cases hu with
  | register v ok hd => exact ⟨rfl, .inl ⟨not_mrtest_of_destination hd, rfl, rfl⟩⟩
  | comparison c hi | parity e hi | subtraction v ok b hi => subst hi; exact ⟨rfl, .inl ⟨rfl, rfl, rfl⟩⟩
  | prime hmr | composite hmr => exact ⟨rfl, .inr ⟨hmr, rfl, rfl⟩⟩

theorem MachineInv.complete {u : State} (h : MachineInv s) (hf : s.flight = some f) (hu : ResultWritten f.instr s u) :
    MachineInv u.complete := by
  obtain ⟨hill, hphase⟩ := hu.status_cases
  have excl : ¬ (u.complete.status.done = true ∧ u.complete.status.ill = true) := by
    simp [hill, (h.done_ill hf).2]
  have regs : RegsInv u.complete.regs := RegsInv.resultWritten (u := u) h.regsInv hu
  rcases hphase with ⟨hmr, hverdict, hphase⟩ | ⟨-, hverdict, htesting⟩
  · refine machineInv_of_quiescent rfl regs excl ?_ ?_
    · rw [State.complete_status, hphase, h.testing_eq hf, hmr]
    · rw [State.complete_status, hphase, hverdict, h.verdict]
  · exact machineInv_of_quiescent rfl regs excl htesting hverdict

/-- A step of a command keeps the invariant. -/
theorem MachineInv.commandStep {i : Instr} {t : State} (h : MachineInv s) (hstep : CommandStep i s t) : MachineInv t := by
  cases hstep with
  | unchanged => exact h
  | accept f hq hi hdraws hmr => exact h.accept hq (hi ▸ hmr) hdraws
  | acceptMrtest ra hq hi => exact h.acceptMrtest ra
  | pull f w ws hf hi hlt hsource => exact h.pull hf hlt w ws
  | decompose f hf hi hmr hp hn => exact h.withCandidate hf (hi ▸ hmr) hp (Flight.decomposedCandidate_decomposed hn)
  | beginRound f k hf hi hmr hp hk => exact h.beginRound hf (hi ▸ hmr) hp hk
  | complete f u hf hi hu => exact h.complete hf (hi ▸ hu)

end

/-! ## The other events -/

theorem machineInv_hardReset (s : State) : MachineInv s.hardReset :=
  machineInv_of_quiescent rfl ⟨s.hardReset_canonical, s.hardReset_initialisedIsWritten⟩ nofun rfl rfl

/-- The illegal-command step comes at BUSY = 0 only (rules R110, R111). -/
theorem MachineInv.illegal {s : State} (h : MachineInv s) (hq : s.quiescent) : MachineInv s.illegal :=
  machineInv_of_quiescent hq h.regsInv nofun (h.not_testing_of_quiescent hq) h.verdict

/-- Everything the offer of a word can do (rules R108, R110, R111). -/
theorem offerCommand_cases {v : BitVec 32} {s t : State} (h : offerCommand v s = .next t) :
    t = s ∨ (s.quiescent ∧ t = s.illegal) ∨ ∃ i, CommandStep i s t := by
  cases hf : s.flight with
  | some f =>
    rw [offerCommand_dropped v s (busy_of_inFlight hf)] at h
    cases h
    exact .inl rfl
  | none =>
    cases hd : decode v with
    | ok i =>
      rw [offerCommand_accepted v s i hf hd] at h
      exact .inr (.inr ⟨i, exec_commandStep h⟩)
    | error e =>
      rw [offerCommand_rejected v s e hf hd] at h
      cases h
      exact .inr (.inl ⟨hf, rfl⟩)

theorem MachineInv.offerCommand {v : BitVec 32} {s t : State} (h : MachineInv s) (hstep : offerCommand v s = .next t) :
    MachineInv t := by
  rcases offerCommand_cases hstep with rfl | ⟨hq, rfl⟩ | ⟨i, hi⟩
  · exact h
  · exact h.illegal hq
  · exact h.commandStep hi

/-- Of the host's transactions other than an offer, only MemWrite touches a register. -/
theorem hostTransaction_regsInv {op : HostOp} {s t : State} (h : RegsInv s.regs) (hcmd : ∀ v, op ≠ .csrWrite 0 v)
    (hstep : hostTransaction op s = .next t) : RegsInv t.regs := by
  rcases hostTransaction_cases hcmd hstep with rfl | rfl | ⟨addr, rfl⟩ | ⟨addr, b, rfl⟩ | ⟨i, rfl⟩ | ⟨v, rfl⟩
  case inr.inr.inr.inl => exact h.writeByte addr b
  all_goals exact h

theorem MachineInv.hostTransaction {op : HostOp} {s t : State} (h : MachineInv s)
    (hstep : hostTransaction op s = .next t) : MachineInv t := by
  by_cases hcmd : ∃ v, op = .csrWrite 0 v
  · obtain ⟨v, rfl⟩ := hcmd
    exact h.offerCommand (v := v) hstep
  · have hcmd' : ∀ v, op ≠ .csrWrite 0 v := fun v e => hcmd ⟨v, e⟩
    exact h.of_engineKept (hostTransaction_regsInv h.regsInv hcmd' hstep) (hostTransaction_engineKept hcmd' hstep)

theorem MachineInv.waitPoll {s : State} (h : MachineInv s) (gaps : List Gap) : MachineInv (s.waitPoll gaps) := by
  obtain ⟨agenda, hpoll⟩ := s.waitPoll_cases gaps
  rw [hpoll]
  exact h.of_engineKept h.regsInv ⟨rfl, rfl, rfl, rfl⟩

theorem MachineInv.engineTurn {s t : State} (h : MachineInv s) (hstep : engineTurn s = .next t) : MachineInv t := by
  cases hf : s.flight with
  | none => rw [engineTurn_idle s hf] at hstep; cases hstep; exact h
  | some f =>
    rw [engineTurn_inFlight s f hf] at hstep
    exact h.commandStep (exec_commandStep hstep)

theorem MachineInv.event {e : Event} {s t : State} (h : MachineInv s) (hstep : event e s = .next t) : MachineInv t := by
  cases e with
  | host op => exact h.hostTransaction hstep
  | wait gaps => cases hstep; exact h.waitPoll gaps
  | deliver w =>
    cases hstep
    exact h.of_engineKept h.regsInv ⟨rfl, rfl, rfl, rfl⟩
  | reset => cases hstep; exact machineInv_hardReset s
  | engine => exact h.engineTurn hstep

/-- Settles O59, by the cases of an event; the state less its agenda entry meets the invariant too. -/
theorem everyStepKeepsTheInvariant : Obligations.EveryStepKeepsTheInvariant := by
  intro s t h hstep
  cases ha : s.agenda with
  | nil =>
    rw [step_empty s ha] at hstep
    exact h.engineTurn hstep
  | cons e rest =>
    rw [step_event s e rest ha] at hstep
    have h' : MachineInv { s with agenda := rest } :=
      h.of_engineKept h.regsInv ⟨rfl, rfl, rfl, rfl⟩
    exact h'.event hstep

/-- Settles O58: at reset no command is in flight and no register bit is written. -/
theorem invariantHoldsAtReset : Obligations.InvariantHoldsAtReset :=
  machineInv_hardReset State.reset

end Sys2Proof.Machine
end

section
/-! SUPPORT. The frames over all commands: what a step of any command leaves unchanged (rules R32, R34, R46). -/

namespace Sys2Proof.Machine

variable {i : Instr} {s t u : State}

/-- The complete step keeps every register but the destination. -/
theorem ResultWritten.regs_eq (hu : ResultWritten i s u) {k : RegIdx} (hk : destination i ≠ some k) :
    u.regs[k] = s.regs[k] := by
  cases hu with
  | register v ok hd => exact regs_set_other _ _ _ _ fun e => hk (e ▸ hd)
  | subtraction v ok b hi => exact regs_set_other _ _ _ _ fun e => hk (by rw [hi, e]; rfl)
  | comparison | parity | prime | composite => rfl

/-- The complete step keeps ROUNDS, the agenda and what the host has read. -/
theorem ResultWritten.host_eq (hu : ResultWritten i s u) :
    u.rounds = s.rounds ∧ u.agenda = s.agenda ∧ u.returned = s.returned := by
  cases hu <;> exact ⟨rfl, rfl, rfl⟩

/-- Registers, CMP, EVEN and BORROW change in a complete step only. -/
theorem CommandStep.complete_or_kept (h : CommandStep i s t) :
    (∃ f u, s.flight = some f ∧ f.instr = i ∧ ResultWritten i s u ∧ t = u.complete) ∨
      (t.regs = s.regs ∧ t.status.cmp = s.status.cmp ∧ t.status.even = s.status.even ∧
        t.status.borrow = s.status.borrow) := by
  cases h with
  | complete f u hf hi hu => exact .inl ⟨f, u, hf, hi, hu, rfl⟩
  | unchanged | accept | acceptMrtest | pull | decompose | beginRound => exact .inr ⟨rfl, rfl, rfl, rfl⟩

/-- No command's step writes ROUNDS, the agenda or what the host has read. -/
theorem CommandStep.host_eq (h : CommandStep i s t) :
    t.rounds = s.rounds ∧ t.agenda = s.agenda ∧ t.returned = s.returned := by
  cases h with
  | complete f u hf hi hu => exact hu.host_eq
  | unchanged | accept | acceptMrtest | pull | decompose | beginRound => exact ⟨rfl, rfl, rfl⟩

/-- Settles O15: by the inversion of a command's step, only its complete step writes a register, the destination. -/
theorem onlyTheDestinationIsWritten : Obligations.OnlyTheDestinationIsWritten := by
  intro i s t hexec
  have h : CommandStep i s t := exec_commandStep hexec
  refine ⟨fun k hk => ?_, fun hne => ?_, h.host_eq⟩
  · rcases h.complete_or_kept with ⟨f, u, -, -, hu, rfl⟩ | ⟨hregs, -⟩
    · exact hu.regs_eq hk
    · rw [hregs]
  · rcases h.complete_or_kept with ⟨f, u, hf, -, -, rfl⟩ | ⟨hregs, -⟩
    · exact ⟨busy_of_inFlight hf, rfl, rfl⟩
    · exact absurd hregs hne

/-- A flag is written by the complete step of its own command only (rule R46). -/
theorem ResultWritten.flags_eq (hu : ResultWritten i s u) :
    ((∀ ra rb, i ≠ .cmp ra rb) → u.status.cmp = s.status.cmp) ∧
      ((∀ ra, i ≠ .iseven ra) → u.status.even = s.status.even) ∧
      ((∀ rd ra rb, i ≠ .sub rd ra rb) → u.status.borrow = s.status.borrow) := by
  cases hu with
  | comparison c hi => exact ⟨fun h => absurd hi (h _ _), fun _ => rfl, fun _ => rfl⟩
  | parity e hi => exact ⟨fun _ => rfl, fun h => absurd hi (h _), fun _ => rfl⟩
  | subtraction v ok b hi => exact ⟨fun _ => rfl, fun _ => rfl, fun h => absurd hi (h _ _ _)⟩
  | register | prime | composite => exact ⟨fun _ => rfl, fun _ => rfl, fun _ => rfl⟩

/-- VERDICT and PHASE are written by MRTEST only (rule R46). -/
theorem CommandStep.verdict_phase_eq (h : CommandStep i s t) (hmr : isMrtest i = false) :
    t.status.verdict = s.status.verdict ∧ t.status.phase = s.status.phase := by
  cases h with
  | complete f u hf hi hu =>
    rcases hu.status_cases.2 with ⟨-, hkept⟩ | ⟨hmr', -⟩
    · exact hkept
    · rw [hmr] at hmr'; cases hmr'
  | acceptMrtest ra hq hi => subst hi; cases hmr
  | decompose f hf hi hmr' | beginRound f k hf hi hmr' => rw [hmr] at hmr'; cases hmr'
  | unchanged | accept | pull => exact ⟨rfl, rfl⟩

/-- Settles O16, by the inversion of a command's step and of what its complete step writes. -/
theorem flagsPersist : Obligations.FlagsPersist := by
  intro i s t hexec
  have h : CommandStep i s t := exec_commandStep hexec
  rcases h.complete_or_kept with ⟨f, u, hf, -, hu, rfl⟩ | ⟨-, hcmp, heven, hborrow⟩
  · obtain ⟨hcmp, heven, hborrow⟩ := hu.flags_eq
    exact ⟨hcmp, heven, hborrow, h.verdict_phase_eq, fun _ => ⟨busy_of_inFlight hf, rfl, rfl⟩⟩
  · refine ⟨fun _ => hcmp, fun _ => heven, fun _ => hborrow, h.verdict_phase_eq, ?_⟩
    rintro (hne | hne | hne)
    · exact absurd hcmp hne
    · exact absurd heven hne
    · exact absurd hborrow hne

end Sys2Proof.Machine
end

section
/-! SUPPORT. Two machines with the same command in flight, the same PHASE and the same words in the source take the same step
of it (rules R34, R91). -/

namespace Sys2Proof.Machine

/-- What two completed machines agree on: the destination, and the flag that the command writes (rules R32, R46). -/
structure ResultsAgree (i : Instr) (t t' : State) : Prop where
  register : ∀ rd, destination i = some rd → t.regs[rd] = t'.regs[rd]
  verdict : isMrtest i = true → t.status.verdict = t'.status.verdict
  cmp : ∀ ra rb, i = .cmp ra rb → t.status.cmp = t'.status.cmp
  even : ∀ ra, i = .iseven ra → t.status.even = t'.status.even
  borrow : ∀ rd ra rb, i = .sub rd ra rb → t.status.borrow = t'.status.borrow

/-- The step from `s` to `t` and the step from `s'` to `t'` are the same, as far as the command determines them. -/
structure TurnsAgree (i : Instr) (s s' t t' : State) : Prop where
  flight : t.flight = t'.flight
  source : t.source = t'.source
  phase : t.status.phase = t'.status.phase
  pulled : t.ridx - s.ridx = t'.ridx - s'.ridx
  result : t.flight = none → ResultsAgree i t t'

/-- A command with a destination writes no flag but, for SUB, BORROW. -/
theorem resultsAgree_of_destination {i : Instr} {t t' : State} {rd : RegIdx} (hd : destination i = some rd)
    (hreg : t.regs[rd] = t'.regs[rd]) (hborrow : ∀ rd ra rb, i = .sub rd ra rb → t.status.borrow = t'.status.borrow) :
    ResultsAgree i t t' where
  register := by
    intro k hk
    rw [hd] at hk
    cases hk
    exact hreg
  verdict hmr := by rw [not_mrtest_of_destination hd] at hmr; cases hmr
  cmp := by rintro ra rb rfl; cases hd
  even := by rintro ra rfl; cases hd
  borrow := hborrow

variable {i : Instr} {s s' u u' : State} {f : Flight}

/-- Two machines that pulled the same agree after the complete step if their results do. -/
theorem turnsAgree_complete (hsource : u.source = u'.source) (hphase : u.status.phase = u'.status.phase)
    (hridx : u.ridx = s.ridx) (hridx' : u'.ridx = s'.ridx) (hresult : ResultsAgree i u u') :
    TurnsAgree i s s' u.complete u'.complete where
  flight := rfl
  source := hsource
  phase := hphase
  pulled := by simp [hridx, hridx']
  result _ := ⟨hresult.register, hresult.verdict, hresult.cmp, hresult.even, hresult.borrow⟩

section
variable (hf : s.flight = some f) (hf' : s'.flight = some f) (hsource : s.source = s'.source)
  (hphase : s.status.phase = s'.status.phase)
include hf hf' hsource hphase

theorem turnsAgree_unchanged : TurnsAgree i s s' s s' where
  flight := hf.trans hf'.symm
  source := hsource
  phase := hphase
  pulled := by simp
  result h := by rw [hf] at h; cases h

theorem turnsAgree_pull : TurnsAgree i s s' (s.pull f) (s'.pull f) := by
  cases h : s.source with
  | nil =>
    simp only [State.pull, h, ← hsource]
    exact turnsAgree_unchanged hf hf' hsource hphase
  | cons w ws =>
    simp only [State.pull, h, ← hsource]
    exact ⟨rfl, rfl, hphase, by simp, nofun⟩

end

/-! ## The turns of MRTEST that write PHASE -/

section
variable (hsource : s.source = s'.source)
include hsource

theorem turnsAgree_completePrime (ra : RegIdx) : TurnsAgree (.mrtest ra) s s' s.completePrime s'.completePrime :=
  turnsAgree_complete hsource rfl rfl rfl ⟨nofun, fun _ => rfl, nofun, nofun, nofun⟩

theorem turnsAgree_completeComposite (ra : RegIdx) :
    TurnsAgree (.mrtest ra) s s' s.completeComposite s'.completeComposite :=
  turnsAgree_complete hsource rfl rfl rfl ⟨nofun, fun _ => rfl, nofun, nofun, nofun⟩

theorem turnsAgree_mrStart (ra : RegIdx) : TurnsAgree (.mrtest ra) s s' (s.mrStart f) (s'.mrStart f) := by
  simp only [State.mrStart]
  split
  · exact turnsAgree_completeComposite hsource ra
  · exact ⟨rfl, hsource, rfl, by simp, nofun⟩

theorem turnsAgree_mrRoundControl (ra : RegIdx) (k : Nat) :
    TurnsAgree (.mrtest ra) s s' (s.mrRoundControl f k) (s'.mrRoundControl f k) := by
  simp only [State.mrRoundControl]
  split
  · exact turnsAgree_completePrime hsource ra
  · exact ⟨rfl, hsource, rfl, by simp, nofun⟩

end

/-! ## The turns of every command -/

section
variable (hsource : s.source = s'.source) (hphase : s.status.phase = s'.status.phase)
include hsource hphase

/-- The complete step of a command with a destination and no flag. -/
theorem turnsAgree_setReg {rd : RegIdx} (v : Word) (ok : Bool) (hd : destination i = some rd)
    (hsub : ∀ rd ra rb, i ≠ .sub rd ra rb) :
    TurnsAgree i s s' (s.setReg rd v ok).complete (s'.setReg rd v ok).complete := by
  refine turnsAgree_complete hsource hphase rfl rfl (resultsAgree_of_destination hd ?_ fun rd ra rb e => absurd e (hsub rd ra rb))
  simp only [State.setReg_regs, regs_set_same]

theorem turnsAgree_completeWith (hf : s.flight = some f) (hf' : s'.flight = some f) {rd : RegIdx} (v : Option Word)
    (ok : Bool) (hd : destination i = some rd) (hsub : ∀ rd ra rb, i ≠ .sub rd ra rb) :
    TurnsAgree i s s' (s.completeWith rd v ok) (s'.completeWith rd v ok) := by
  cases v with
  | none => exact turnsAgree_unchanged hf hf' hsource hphase
  | some v => exact turnsAgree_setReg hsource hphase v ok hd hsub

theorem turnsAgree_mrRound (hf : s.flight = some f) (hf' : s'.flight = some f) (ra : RegIdx) :
    TurnsAgree (.mrtest ra) s s' (s.mrRound f) (s'.mrRound f) := by
  simp only [State.mrRound]
  split
  · exact turnsAgree_pull hf hf' hsource hphase
  · split
    · exact turnsAgree_mrRoundControl hsource ra _
    · exact turnsAgree_completeComposite hsource ra
    · exact turnsAgree_unchanged hf hf' hsource hphase

/-- A turn of MRTEST is selected by PHASE, which the two machines share (rule R196). -/
theorem turnsAgree_mrTurn (hf : s.flight = some f) (hf' : s'.flight = some f) (ra : RegIdx) :
    TurnsAgree (.mrtest ra) s s' (s.mrTurn f) (s'.mrTurn f) := by
  simp only [State.mrTurn, ← hphase]
  cases s.status.phase with
  | start => exact turnsAgree_mrStart hsource ra
  | decomposed => exact turnsAgree_mrRoundControl hsource ra _
  | roundInProgress => exact turnsAgree_mrRound hsource hphase hf hf' ra
  | idle | probablyPrime | composite => exact turnsAgree_unchanged hf hf' hsource hphase

theorem turnsAgree_flightTurn (hf : s.flight = some f) (hf' : s'.flight = some f) :
    TurnsAgree i s s' (flightTurn s f i) (flightTurn s' f i) := by
  cases i with
  | zero | copy | shr1 => exact turnsAgree_setReg hsource hphase _ _ rfl nofun
  | cmp => exact turnsAgree_complete hsource hphase rfl rfl ⟨nofun, nofun, fun _ _ _ => rfl, nofun, nofun⟩
  | iseven => exact turnsAgree_complete hsource hphase rfl rfl ⟨nofun, nofun, nofun, fun _ _ => rfl, nofun⟩
  | sub =>
    refine turnsAgree_complete hsource hphase rfl rfl (resultsAgree_of_destination rfl ?_ fun _ _ _ _ => rfl)
    simp only [State.setBorrow_regs, State.setReg_regs, regs_set_same]
  | randc =>
    simp only [flightTurn]
    split
    · exact turnsAgree_pull hf hf' hsource hphase
    · exact turnsAgree_setReg hsource hphase _ _ rfl nofun
  | mulmod | powmod => exact turnsAgree_completeWith hsource hphase hf hf' _ _ rfl nofun
  | mrtest => exact turnsAgree_mrTurn hsource hphase hf hf' _

end

/-- Settles O14: the turn of a command in flight reads the flight, PHASE and the source, and nothing else of the state. -/
theorem resultDependsOnLatchesOnly : Obligations.ResultDependsOnLatchesOnly := by
  intro i s s' f hf hf' hi hphase hsource
  have h : TurnsAgree i s s' (flightTurn s f i) (flightTurn s' f i) := turnsAgree_flightTurn hsource hphase hf hf'
  refine ⟨_, _, exec_inFlight hf hi, exec_inFlight hf' hi, h.flight, h.source, h.phase, h.pulled, fun hnone => ?_⟩
  obtain ⟨hreg, hverdict, hcmp, heven, hborrow⟩ := h.result hnone
  exact ⟨hreg, hverdict, hcmp, heven, hborrow⟩

end Sys2Proof.Machine
end

section
/-! SUPPORT. What STATUS and the registers read as: the fields of the STATUS word and what the invariant keeps it from
showing; a written and an unwritten register bit; the reset values (rules R35, R37 to R44, R55). -/

namespace Sys2Proof.Machine

/-! ## The fields of STATUS (rule R38): each is found by leaving out the fields below it -/

section
variable (s : State)

theorem statusWord_busy : s.statusWord.extractLsb' 0 1 = BitVec.ofBool s.busy := by
  rw [State.statusWord, BitVec.extractLsb'_append_eq_right]

theorem statusWord_done : s.statusWord.extractLsb' 1 1 = BitVec.ofBool s.status.done := by
  rw [State.statusWord, BitVec.extractLsb'_append_eq_of_le (by decide), BitVec.extractLsb'_append_eq_right]

theorem statusWord_cmp : s.statusWord.extractLsb' 2 2 = s.status.cmp.code := by
  unfold State.statusWord
  iterate 2 rw [BitVec.extractLsb'_append_eq_of_le (by decide)]
  exact BitVec.extractLsb'_append_eq_right

theorem statusWord_even : s.statusWord.extractLsb' 4 1 = BitVec.ofBool s.status.even := by
  unfold State.statusWord
  iterate 3 rw [BitVec.extractLsb'_append_eq_of_le (by decide)]
  exact BitVec.extractLsb'_append_eq_right

theorem statusWord_borrow : s.statusWord.extractLsb' 5 1 = BitVec.ofBool s.status.borrow := by
  unfold State.statusWord
  iterate 4 rw [BitVec.extractLsb'_append_eq_of_le (by decide)]
  exact BitVec.extractLsb'_append_eq_right

theorem statusWord_verdict : s.statusWord.extractLsb' 6 2 = s.status.verdict.code := by
  unfold State.statusWord
  iterate 5 rw [BitVec.extractLsb'_append_eq_of_le (by decide)]
  exact BitVec.extractLsb'_append_eq_right

theorem statusWord_phase : s.statusWord.extractLsb' 8 3 = s.status.phase.code := by
  unfold State.statusWord
  iterate 6 rw [BitVec.extractLsb'_append_eq_of_le (by decide)]
  exact BitVec.extractLsb'_append_eq_right

theorem statusWord_ill : s.statusWord.extractLsb' 11 1 = BitVec.ofBool s.status.ill := by
  unfold State.statusWord
  iterate 7 rw [BitVec.extractLsb'_append_eq_of_le (by decide)]
  exact BitVec.extractLsb'_append_eq_right

theorem statusWord_reserved : s.statusWord.extractLsb' 12 20 = 0 := by
  unfold State.statusWord
  iterate 7 rw [BitVec.extractLsb'_append_eq_of_le (by decide)]
  exact BitVec.extractLsb'_append_eq_left

end

/-- Settles O57, field by field; the `done` output is the field DONE. -/
theorem statusWordLayout : Obligations.StatusWordLayout := fun s =>
  ⟨statusWord_busy s, statusWord_done s, statusWord_cmp s, statusWord_even s, statusWord_borrow s, statusWord_verdict s,
    statusWord_phase s, statusWord_ill s, statusWord_reserved s, (statusWord_done s).symm, ⟨rfl, rfl, rfl⟩, ⟨rfl, rfl, rfl⟩,
    ⟨rfl, rfl, rfl, rfl, rfl, rfl⟩⟩

/-! ## What STATUS never shows -/

theorem CmpResult.code_ne_reserved (c : CmpResult) : c.code ≠ 0b10 := by cases c <;> decide

theorem Verdict.code_ne_reserved (v : Verdict) : v.code ≠ 0b11 := by cases v <;> decide

theorem Phase.code_le (p : Phase) : p.code.toNat ≤ 5 := by cases p <;> decide

/-- A field of one bit, as a bit of the word. -/
theorem getLsbD_of_field {v : BitVec 32} {j : Nat} {b : Bool} (h : v.extractLsb' j 1 = BitVec.ofBool b) :
    v.getLsbD j = b := by
  simpa using congrArg (fun x : BitVec 1 => x.getLsbD 0) h

/-- Settles O60: BUSY and DONE exclude each other by the invariant, and no value of CMP, VERDICT, PHASE has a reserved code. -/
theorem statusNeverShowsReservedCodes : Obligations.StatusNeverShowsReservedCodes := by
  intro s h
  refine ⟨?_, ?_, ?_, ?_, statusWord_reserved s⟩
  · rw [getLsbD_of_field (statusWord_busy s), getLsbD_of_field (statusWord_done s)]
    rintro ⟨hbusy, hdone⟩
    rw [(h.busy hbusy).1] at hdone
    cases hdone
  · rw [statusWord_cmp]; exact s.status.cmp.code_ne_reserved
  · rw [statusWord_verdict]; exact s.status.verdict.code_ne_reserved
  · rw [statusWord_phase]; exact s.status.phase.code_le

/-! ## Register bits -/

/-- A register reads bit by bit as rule R35 says. -/
theorem Reg.getLsbD_under (r : Reg) (free : Word) {j : Nat} (hj : j < 512) :
    (r.under free).getLsbD j = if r.written.getLsbD j then r.value.getLsbD j else free.getLsbD j := by
  unfold Reg.under
  split
  · rename_i hw
    simp only [hw, allBits, BitVec.getLsbD_allOnes, hj, decide_true, if_true]
  · simp only [BitVec.getLsbD_or, BitVec.getLsbD_and, BitVec.getLsbD_not, hj, decide_true, Bool.true_and]
    cases r.written.getLsbD j <;> simp

/-- Settles O54, by the bits of a register as it reads. -/
theorem unwrittenBitsAreFree : Obligations.UnwrittenBitsAreFree := fun s k _ hj =>
  (s.regs[k]).getLsbD_under (Config.freeRegister s.freeIdx k) hj

/-! ## The reset state -/

/-- With no bit written a register reads as the free value of the use. -/
theorem State.view_of_unwritten (s : State) (k : RegIdx) (h : s.regs[k] = ⟨0, 0, 0⟩) :
    s.view k = Config.freeRegister s.freeIdx k := by
  rw [State.view, h]
  exact Reg.unwritten_under _ _ _

theorem reset_statusWord : State.reset.statusWord = 0 := by decide

/-- Settles O8: STATUS, CMD and ROUNDS by their values, the registers because nothing has written them. -/
theorem resetStateValues : Obligations.ResetStateValues := by
  refine ⟨reset_statusWord, rfl, reset_statusWord, by decide, rfl, rfl, fun t k => ?_⟩
  refine State.view_of_unwritten _ k ?_
  simp [State.reset]

end Sys2Proof.Machine
end

section
/-! SUPPORT. The random-word port: who pulls, what a pull takes, and where a delivery puts its word (rules R86 to R88). -/

namespace Sys2Proof.Machine

variable {i : Instr} {s t : State} {f : Flight}

/-! ## A pull -/

theorem State.pull_of_empty (h : s.source = []) : s.pull f = s := by simp only [State.pull, h]

theorem State.pull_of_cons {w : Limb} {ws : List Limb} (h : s.source = w :: ws) :
    s.pull f = { s with source := ws, ridx := s.ridx + 1, flight := some { f with draws := f.draws ++ [w] } } := by
  simp only [State.pull, h]

/-- RANDC in flight, and MRTEST in a round, pull while fewer than eight words are drawn (rules R160, R204). -/
theorem flightTurn_eq_pull (hlt : f.draws.length < 8)
    (hi : (∃ rd, i = .randc rd) ∨ ((∃ ra, i = .mrtest ra) ∧ s.status.phase = .roundInProgress)) :
    flightTurn s f i = s.pull f := by
  rcases hi with ⟨rd, rfl⟩ | ⟨⟨ra, rfl⟩, hp⟩
  · exact if_pos hlt
  · simp only [flightTurn, State.mrTurn, hp]
    exact if_pos hlt

/-- Settles O31: the turn of the command in flight is a pull, which waits or takes a word by what the source holds. -/
theorem pullWaitsForTheSource : Obligations.PullWaitsForTheSource := by
  refine ⟨fun i s f hf hi hlt hpulls => ?_, fun s w rest ha => step_event s _ rest ha⟩
  have pull : exec i s = .next (s.pull f) := by rw [exec_inFlight hf hi, flightTurn_eq_pull hlt hpulls]
  refine ⟨fun hsource => ?_, fun w ws hsource => ?_⟩
  · rw [pull, State.pull_of_empty hsource]
  · rw [pull, State.pull_of_cons hsource]

/-! ## Who pulls -/

theorem ResultWritten.source_eq (h : ResultWritten i s t) : t.source = s.source ∧ t.ridx = s.ridx := by
  cases h <;> exact ⟨rfl, rfl⟩

/-- A step of a command leaves the source alone, or the command is in flight and takes the next word. -/
theorem CommandStep.source_cases (h : CommandStep i s t) :
    (t.source = s.source ∧ t.ridx = s.ridx) ∨
      (s.busy = true ∧ ∃ w, s.source = w :: t.source ∧ t.ridx = s.ridx + 1) := by
  cases h with
  | pull f w ws hf hi hlt hsource => exact .inr ⟨busy_of_inFlight hf, w, hsource, rfl⟩
  | complete f u hf hi hu => exact .inl hu.source_eq
  | unchanged | accept | acceptMrtest | decompose | beginRound => exact .inl ⟨rfl, rfl⟩

theorem acceptStep_source (s : State) (i : Instr) : (acceptStep s i).source = s.source := by cases i <;> rfl

theorem State.completeWith_source (s : State) (rd : RegIdx) (v : Option Word) (ok : Bool) :
    (s.completeWith rd v ok).source = s.source := by cases v <;> rfl

/-- The turn of a command other than RANDC and MRTEST leaves the source alone (rule R86). -/
theorem flightTurn_source (hrandc : ∀ rd, i ≠ .randc rd) (hmrtest : ∀ ra, i ≠ .mrtest ra) :
    (flightTurn s f i).source = s.source := by
  cases i with
  | zero | copy | cmp | iseven | sub | shr1 => rfl
  | mulmod | powmod => exact State.completeWith_source ..
  | randc rd => exact absurd rfl (hrandc rd)
  | mrtest ra => exact absurd rfl (hmrtest ra)

/-- A command that takes a word of the source is RANDC or MRTEST (rule R86). -/
theorem randc_or_mrtest_of_source_ne (h : exec i s = .next t) (hne : t.source ≠ s.source) :
    (∃ rd, i = .randc rd) ∨ ∃ ra, i = .mrtest ra := by
  by_contra hnot
  obtain ⟨hrandc, hmrtest⟩ := not_or.mp hnot
  rw [exec_eq_command_flightTurn] at h
  rcases command_cases h with ⟨-, rfl⟩ | ⟨f, -, -, rfl⟩ | ⟨f, -, -, rfl⟩
  · exact hne (acceptStep_source s i)
  · exact hne (flightTurn_source (not_exists.mp hrandc) (not_exists.mp hmrtest))
  · exact hne rfl

/-- Settles O17: only a pull moves the source, and only RANDC and MRTEST have turns that pull. -/
theorem onlyRandcAndMrtestPull : Obligations.OnlyRandcAndMrtestPull := by
  intro i s t hexec
  rcases (exec_commandStep hexec).source_cases with kept | ⟨hbusy, w, hsource, hridx⟩
  · exact .inl kept
  · have hne : t.source ≠ s.source := by simp [hsource]
    exact .inr ⟨randc_or_mrtest_of_source_ne hexec hne, hbusy, w, hsource, hridx⟩

end Sys2Proof.Machine
end

section
/-! SUPPORT. The host port: what a transaction at the head of the agenda does at each value of BUSY (rules R72 to R84). -/

namespace Sys2Proof.Machine

/-! ## The step of a host transaction -/

section
variable {s : State} {rest : List Event} {addr : BitVec 9} {b : Byte}

theorem step_host {op : HostOp} (ha : s.agenda = .host op :: rest) :
    step s = hostTransaction op { s with agenda := rest } := step_event s _ rest ha

theorem step_memRead (ha : s.agenda = .host (.memRead addr) :: rest) (hq : s.quiescent) :
    step s = .next ({ s with agenda := rest }.readByte addr) := by
  rw [step_host ha]
  exact if_neg (by simp [State.busy, hq])

theorem step_memWrite (ha : s.agenda = .host (.memWrite addr b) :: rest) (hq : s.quiescent) :
    step s = .next ({ s with agenda := rest }.writeByte addr b) := by
  rw [step_host ha]
  exact if_neg (by simp [State.busy, hq])

theorem hostTransaction_memRead_busy (addr : BitVec 9) (h : s.busy = true) :
    hostTransaction (.memRead addr) s = .next s.readFreeByte := if_pos h

theorem hostTransaction_memWrite_busy (addr : BitVec 9) (b : Byte) (h : s.busy = true) :
    hostTransaction (.memWrite addr b) s = .next s := if_pos h

/-- While BUSY = 1 a CSR write to any index is dropped (rules R84, R111). -/
theorem csrWrite_busy (i : Fin 16) (v : BitVec 32) (h : s.busy = true) : csrWrite i v s = .next s := by
  unfold csrWrite
  split
  · exact offerCommand_dropped v s h
  · exact if_pos h
  · rfl

theorem csrWrite_rounds_idle (v : BitVec 32) (hq : s.quiescent) : csrWrite 2 v s = .next (s.setRounds v) :=
  if_neg (by simp [State.busy, hq])

/-- A CSR write to an index other than CMD and ROUNDS has no effect (rules R49, R81). -/
theorem csrWrite_noEffect {i : Fin 16} (v : BitVec 32) (h0 : i ≠ 0) (h2 : i ≠ 2) : csrWrite i v s = .next s := by
  unfold csrWrite
  split
  · exact absurd (Fin.ext ‹_›) h0
  · exact absurd (Fin.ext ‹_›) h2
  · rfl

end

/-- Settles O12: each transaction of the host at BUSY = 1, on the state less its agenda entry. -/
theorem busyWindowIgnoresTheHost : Obligations.BusyWindowIgnoresTheHost := by
  intro s rest hbusy
  have hbusy' : { s with agenda := rest }.busy = true := hbusy
  refine ⟨fun i v ha => ?_, fun addr b ha => ?_, fun addr ha => ?_⟩
  · exact (step_host ha).trans (csrWrite_busy i v hbusy')
  · exact (step_host ha).trans (hostTransaction_memWrite_busy addr b hbusy')
  · exact (step_host ha).trans (hostTransaction_memRead_busy addr hbusy')

/-! ## CSRs -/

theorem State.csrValue_eq (s : State) (i : Fin 16) :
    s.csrValue i = if i = 0 then s.cmd else if i = 1 then s.statusWord else if i = 2 then s.rounds.setWidth 32 else 0 := by
  split_ifs with h0 h1 h2
  · rw [h0]; rfl
  · rw [h1]; rfl
  · rw [h2]; rfl
  · unfold State.csrValue
    split
    · exact absurd (Fin.ext ‹_›) h0
    · exact absurd (Fin.ext ‹_›) h1
    · exact absurd (Fin.ext ‹_›) h2
    · rfl

/-- Settles O55: the value read, index by index. -/
theorem csrReadReturnsTheRegister : Obligations.CsrReadReturnsTheRegister := by
  intro s i rest ha
  rw [step_host ha, ← s.csrValue_eq i]
  rfl

/-- Settles O56: index 2 is ROUNDS, index 0 is left out, and every other index has no effect. -/
theorem csrWriteSetsRoundsOnly : Obligations.CsrWriteSetsRoundsOnly := by
  intro s i v rest ha hq h0
  have write : step s = csrWrite i v { s with agenda := rest } := step_host ha
  by_cases h2 : i = 2
  · subst h2
    have low : v.extractLsb' 0 16 = v.setWidth 16 := BitVec.eq_of_toNat_eq (by simp)
    rw [if_pos rfl, low]
    exact write.trans (csrWrite_rounds_idle v hq)
  · rw [write, csrWrite_noEffect v h0 h2, if_neg h2]

/-! ## The address and the byte it names (rules R72, R73) -/

theorem opmemReg_eq (addr : BitVec 9) : opmemReg addr = ⟨addr.toNat / 64, by omega⟩ := by
  apply Fin.ext
  simp only [opmemReg, BitVec.val_toFin, BitVec.extractLsb'_toNat, Nat.shiftRight_eq_div_pow]
  omega

theorem opmemOffset_toNat (addr : BitVec 9) : (opmemOffset addr).toNat = addr.toNat % 64 := by
  simp [opmemOffset]

theorem getByte_toNat (v : Word) (o : BitVec 6) : (getByte v o).toNat = v.toNat / 2 ^ (8 * (63 - o.toNat)) % 2 ^ 8 := by
  simp only [getByte, byteShift, BitVec.extractLsb'_toNat, Nat.shiftRight_eq_div_pow]

/-- Settles O50: the byte read, as a number. -/
theorem memReadReturnsTheByte : Obligations.MemReadReturnsTheByte := by
  intro s addr rest ha hq
  refine ⟨getByte (s.view (opmemReg addr)) (opmemOffset addr), step_memRead ha hq, ?_⟩
  rw [getByte_toNat, opmemOffset_toNat, opmemReg_eq]

/-! ## The bits of a register after a byte write -/

/-- Bit `j` of a register with its marks: its value, whether it is written, whether it is initialised. -/
def Reg.bit (r : Reg) (j : Nat) : Bool × Bool × Bool :=
  (r.value.getLsbD j, r.written.getLsbD j, r.initialised.getLsbD j)

theorem Reg.ext_bit {r q : Reg} (h : ∀ j < 512, r.bit j = q.bit j) : r = q := by
  have bits : ∀ j < 512, r.value.getLsbD j = q.value.getLsbD j ∧ r.written.getLsbD j = q.written.getLsbD j ∧
      r.initialised.getLsbD j = q.initialised.getLsbD j := by simpa [Reg.bit] using h
  cases r
  cases q
  congr 1
  · exact BitVec.eq_of_getLsbD_eq fun j hj => (bits j hj).1
  · exact BitVec.eq_of_getLsbD_eq fun j hj => (bits j hj).2.1
  · exact BitVec.eq_of_getLsbD_eq fun j hj => (bits j hj).2.2

theorem Reg.bit_full (v : Word) {j : Nat} (hj : j < 512) : (Reg.full v).bit j = (v.getLsbD j, true, true) := by
  simp only [Reg.bit, Reg.full, allBits, BitVec.getLsbD_allOnes, hj, decide_true]

/-- A byte write gives its eight bits their values and marks, and leaves every other bit (rules R33, R75). -/
theorem Reg.bit_withByte (r : Reg) (o : BitVec 6) (b : Byte) {j : Nat} (hj : j < 512) :
    (r.withByte o b).bit j = if j / 8 = 63 - o.toNat then (b.getLsbD (j % 8), true, true) else r.bit j := by
  simp only [Reg.bit, Reg.withByte, getLsbD_setByte _ _ _ _ hj, BitVec.getLsbD_or, getLsbD_byteMask]
  by_cases h : j / 8 = 63 - o.toNat
  · have low : byteShift o ≤ j := by simp only [byteShift]; omega
    have high : j < byteShift o + 8 := by simp only [byteShift]; omega
    have place : j - byteShift o = j % 8 := by simp only [byteShift]; omega
    simp [h, low, high, place]
  · have outside : ¬ (byteShift o ≤ j ∧ j < byteShift o + 8) := by simp only [byteShift]; omega
    simp only [← Bool.decide_and, outside, h, if_false, decide_false, Bool.or_false]

/-- Settles O51: in the addressed register the bits of the byte written, in every other register nothing. -/
theorem memWriteChangesOneByte : Obligations.MemWriteChangesOneByte := by
  intro s addr b rest ha hq
  refine ⟨_, step_memWrite ha hq, fun k j hj => ?_⟩
  change (({ s with agenda := rest }.writeByte addr b).regs[k]).bit j = if _ then _ else (s.regs[k]).bit j
  have addressed : k = opmemReg addr ↔ k.val = addr.toNat / 64 := by rw [opmemReg_eq, Fin.ext_iff]
  rw [State.writeByte_regs]
  by_cases hk : k = opmemReg addr
  · subst hk
    rw [regs_set_same, Reg.bit_withByte _ _ _ hj, opmemOffset_toNat]
    simp only [addressed.mp rfl, true_and]
  · rw [regs_set_other _ _ _ _ hk, if_neg fun h => hk (addressed.mpr h.1)]

end Sys2Proof.Machine
end

section
/-! SUPPORT. Runs of byte transactions: a script of byte writes to one register, a script of byte reads of it, and the round
trips through all 64 offsets (rules R72 to R77). -/

namespace Sys2Proof.Machine

/-! ## The bytes of a value and the value of a byte string (rule R73) -/

theorem bytesValue_lt (bytes : List Byte) : bytesValue bytes < 2 ^ (8 * bytes.length) := by
  induction bytes with
  | nil => exact Nat.one_pos
  | cons b bs ih =>
    calc b.toNat * 2 ^ (8 * bs.length) + bytesValue bs
        < (b.toNat + 1) * 2 ^ (8 * bs.length) := by rw [Nat.add_mul, Nat.one_mul]; exact Nat.add_lt_add_left ih _
      _ ≤ 2 ^ 8 * 2 ^ (8 * bs.length) := Nat.mul_le_mul_right _ b.isLt
      _ = 2 ^ (8 * (b :: bs).length) := by rw [← Nat.pow_add, List.length_cons, Nat.mul_succ, Nat.add_comm]

/-- Byte `o` of a big-endian byte string, taken from its value. -/
theorem bytesValue_div_mod (bytes : List Byte) (o : Nat) (ho : o < bytes.length) :
    bytesValue bytes / 2 ^ (8 * (bytes.length - 1 - o)) % 2 ^ 8 = (bytes.getD o 0).toNat := by
  induction bytes generalizing o with
  | nil => cases ho
  | cons b bs ih =>
    cases o with
    | zero =>
      have top : bytesValue (b :: bs) / 2 ^ (8 * bs.length) = b.toNat := by
        rw [bytesValue, Nat.mul_comm, Nat.mul_add_div (Nat.two_pow_pos _), Nat.div_eq_of_lt (bytesValue_lt bs), Nat.add_zero]
      simp only [List.length_cons, Nat.add_sub_cancel, Nat.sub_zero, top, List.getD_cons_zero]
      exact Nat.mod_eq_of_lt b.isLt
    | succ o =>
      have ho' : o < bs.length := Nat.lt_of_succ_lt_succ ho
      have place : (b :: bs).length - 1 - (o + 1) = bs.length - 1 - o := by rw [List.length_cons]; omega
      have above : 8 * bs.length = 8 * (bs.length - 1 - o) + 8 * o + 8 := by omega
      have value : bytesValue (b :: bs) =
          2 ^ (8 * (bs.length - 1 - o)) * (b.toNat * 2 ^ (8 * o) * 2 ^ 8) + bytesValue bs := by
        rw [bytesValue, above, Nat.pow_add, Nat.pow_add]
        ring
      rw [List.getD_cons_succ, ← ih o ho', place, value, Nat.mul_add_div (Nat.two_pow_pos _), Nat.mul_add_mod_self_right]

/-- The 64 bytes of a register's value, offset 0 first. -/
def registerBytes (v : Word) : List Byte := (List.range 64).map fun o => getByte v (BitVec.ofNat 6 o)

@[simp] theorem registerBytes_length (v : Word) : (registerBytes v).length = 64 := by simp [registerBytes]

theorem registerBytes_getD (v : Word) {o : Nat} (ho : o < 64) :
    (registerBytes v).getD o 0 = getByte v (BitVec.ofNat 6 o) := by
  simp [registerBytes, ho]

/-- The bytes of a register that holds the value of a string of 64 bytes are those of the string. -/
theorem getByte_bytesValue {bytes : List Byte} (h : bytes.length = 64) {o : Nat} (ho : o < 64) :
    getByte (BitVec.ofNat 512 (bytesValue bytes)) (BitVec.ofNat 6 o) = bytes.getD o 0 := by
  have value : (BitVec.ofNat 512 (bytesValue bytes)).toNat = bytesValue bytes :=
    Nat.mod_eq_of_lt (lt_of_lt_of_eq (bytesValue_lt bytes) (by rw [h]))
  have offset : (BitVec.ofNat 6 o).toNat = o := Nat.mod_eq_of_lt ho
  apply BitVec.eq_of_toNat_eq
  rw [← bytesValue_div_mod bytes o (by omega), getByte_toNat, value, offset, h]

theorem registerBytes_bytesValue {bytes : List Byte} (h : bytes.length = 64) :
    registerBytes (BitVec.ofNat 512 (bytesValue bytes)) = bytes := by
  refine List.ext_getElem (by rw [registerBytes_length, h]) fun o ho ho' => ?_
  have hlt : o < 64 := h ▸ ho'
  simp only [registerBytes, List.getElem_map, List.getElem_range, getByte_bytesValue h hlt]
  exact List.getD_eq_getElem bytes 0 ho'

/-! ## Byte writes to one register -/

theorem opmemReg_opmemAddr (k : RegIdx) {o : Nat} (ho : o < 64) : opmemReg (opmemAddr k o) = k := by
  apply Fin.ext
  simp only [opmemReg_eq, opmemAddr, BitVec.toNat_ofNat]
  omega

theorem opmemOffset_opmemAddr (k : RegIdx) (o : Nat) : opmemOffset (opmemAddr k o) = BitVec.ofNat 6 o := by
  apply BitVec.eq_of_toNat_eq
  simp only [opmemOffset_toNat, opmemAddr, BitVec.toNat_ofNat]
  omega

/-- A register after byte writes to the offsets `os`, in this order, byte `bytes o` to offset `o`. -/
def Reg.withBytes (r : Reg) (bytes : Nat → Byte) (os : List Nat) : Reg :=
  os.foldl (fun r o => r.withByte (BitVec.ofNat 6 o) (bytes o)) r

/-- The bits of a register after byte writes: those of an offset written are the byte's, the others as before. -/
theorem Reg.bit_withBytes (r : Reg) (bytes : Nat → Byte) (os : List Nat) (hos : ∀ o ∈ os, o < 64) {j : Nat} (hj : j < 512) :
    (r.withBytes bytes os).bit j =
      if 63 - j / 8 ∈ os then ((bytes (63 - j / 8)).getLsbD (j % 8), true, true) else r.bit j := by
  induction os generalizing r with
  | nil => rfl
  | cons o os ih =>
    obtain ⟨ho, hos⟩ := List.forall_mem_cons.mp hos
    have place : j / 8 = 63 - (BitVec.ofNat 6 o).toNat ↔ 63 - j / 8 = o := by
      rw [BitVec.toNat_ofNat]
      omega
    rw [Reg.withBytes, List.foldl_cons, ← Reg.withBytes, ih _ hos, Reg.bit_withByte _ _ _ hj]
    simp only [place, List.mem_cons]
    by_cases hin : 63 - j / 8 ∈ os
    · simp only [hin, or_true, if_true]
    · by_cases heq : 63 - j / 8 = o <;> simp [hin, heq]

/-- Writing all 64 bytes of a value makes a register that value, whatever it held (rule R77). -/
theorem Reg.withBytes_all (r : Reg) {bytes : Nat → Byte} {v : Word}
    (h : ∀ o < 64, bytes o = getByte v (BitVec.ofNat 6 o)) : r.withBytes bytes (List.range 64) = Reg.full v := by
  refine Reg.ext_bit fun j hj => ?_
  have ho : 63 - j / 8 < 64 := by omega
  have place : byteShift (BitVec.ofNat 6 (63 - j / 8)) + j % 8 = j := by
    simp only [byteShift, BitVec.toNat_ofNat]
    omega
  have hbit : (getByte v (BitVec.ofNat 6 (63 - j / 8))).getLsbD (j % 8) = v.getLsbD j := by
    simp [getByte, place, Nat.mod_lt]
  rw [Reg.bit_withBytes _ _ _ (fun o => List.mem_range.mp) hj, if_pos (List.mem_range.mpr ho), h _ ho, hbit,
    Reg.bit_full v hj]

/-! ## Runs of byte transactions at BUSY = 0 -/

theorem runSteps_succ {s t : State} (h : step s = .next t) (n : Nat) : runSteps (n + 1) s = runSteps n t := by
  simp only [runSteps, h]

/-- The run of byte writes to one register changes that register only. -/
theorem runSteps_memWrites (k : RegIdx) (bytes : Nat → Byte) (os : List Nat) (hos : ∀ o ∈ os, o < 64) (s : State)
    (rest : List Event) (hq : s.quiescent)
    (ha : s.agenda = os.map (fun o => .host (.memWrite (opmemAddr k o) (bytes o))) ++ rest) :
    runSteps os.length s = .next { s with
      agenda := rest, regs := s.regs.set k.val ((s.regs[k]).withBytes bytes os) k.isLt } := by
  induction os generalizing s with
  | nil =>
    obtain rfl : s.agenda = rest := ha
    simp [runSteps, Reg.withBytes]
  | cons o os ih =>
    obtain ⟨ho, hos⟩ := List.forall_mem_cons.mp hos
    refine (runSteps_succ (step_memWrite ha hq) _).trans ((ih hos _ ?_ rfl).trans ?_)
    · exact hq
    · simp only [State.writeByte_regs, opmemReg_opmemAddr k ho, opmemOffset_opmemAddr, regs_set_same, Vector.set_set]
      rfl

/-- The run of byte reads of a fully written register gives the host its bytes and changes no state of the engine. -/
theorem runSteps_memReads (k : RegIdx) (os : List Nat) (hos : ∀ o ∈ os, o < 64) (s : State) (rest : List Event)
    (hq : s.quiescent) (hw : (s.regs[k]).written = allBits)
    (ha : s.agenda = os.map (fun o => .host (.memRead (opmemAddr k o))) ++ rest) :
    runSteps os.length s = .next { s with
      agenda := rest
      returned := s.returned ++ (os.map fun o => getByte (s.regs[k]).value (BitVec.ofNat 6 o)).map ReadValue.byte
      freeIdx := s.freeIdx + os.length } := by
  induction os generalizing s with
  | nil =>
    obtain rfl : s.agenda = rest := ha
    simp [runSteps]
  | cons o os ih =>
    obtain ⟨ho, hos⟩ := List.forall_mem_cons.mp hos
    refine (runSteps_succ (step_memRead ha hq) _).trans ((ih hos _ ?_ ?_ rfl).trans ?_)
    · exact hq
    · exact hw
    · have view : ∀ agenda, { s with agenda := agenda }.view k = (s.regs[k]).value := fun _ => s.view_of_written k hw
      simp [opmemReg_opmemAddr k ho, opmemOffset_opmemAddr, view, Nat.add_assoc, Nat.add_comm 1]

/-! ## The round trips -/

variable {s : State} {k : RegIdx} {rest : List Event}

/-- The 64 byte writes of a string make a register its big-endian value (rules R73, R77). -/
theorem runSteps_writeScript {bytes : List Byte} {v : Word} (hb : ∀ o < 64, bytes.getD o 0 = getByte v (BitVec.ofNat 6 o))
    (hq : s.quiescent) (ha : s.agenda = writeScript k bytes ++ rest) :
    runSteps 64 s = .next { s with agenda := rest, regs := s.regs.set k.val (Reg.full v) k.isLt } := by
  have run := runSteps_memWrites k (bytes.getD · 0) (List.range 64) (fun o => List.mem_range.mp) s rest hq ha
  rwa [List.length_range, Reg.withBytes_all _ hb] at run

/-- The 64 byte reads of a fully written register give its bytes (rules R74, R77). -/
theorem runSteps_rdvScript (hq : s.quiescent) (hw : (s.regs[k]).written = allBits)
    (ha : s.agenda = rdvScript k ++ rest) :
    runSteps 64 s = .next { s with
      agenda := rest
      returned := s.returned ++ (registerBytes (s.regs[k]).value).map ReadValue.byte
      freeIdx := s.freeIdx + 64 } := by
  have run := runSteps_memReads k (List.range 64) (fun o => List.mem_range.mp) s rest hq hw ha
  rwa [List.length_range] at run

/-- Settles O52: the runs of the two scripts, one after the other, and that the bytes of a value and the value of bytes are
inverse to each other. -/
theorem sixtyFourByteWritesRoundTrip : Obligations.SixtyFourByteWritesRoundTrip := by
  constructor
  · intro s k bytes rest hlength hq ha
    rw [List.append_assoc] at ha
    have write := runSteps_writeScript (fun _ ho => (getByte_bytesValue hlength ho).symm) hq ha
    refine ⟨write, ?_⟩
    refine (runSteps_add 64 64 write).trans ((runSteps_rdvScript (k := k) ?_ ?_ rfl).trans ?_)
    · exact hq
    · rw [regs_set_same, Reg.full_written]
    · rw [regs_set_same, Reg.full_value, registerBytes_bytesValue hlength]
  · intro s k rest hq hw ha
    refine ⟨registerBytes (s.regs[k]).value, registerBytes_length _, runSteps_rdvScript hq hw ha, ?_⟩
    intro t htq hregs hta
    rw [runSteps_writeScript (fun o ho => registerBytes_getD _ ho) htq hta, hregs]

end Sys2Proof.Machine
end

section
/-! SUPPORT. The decoder and the encoder are inverse to each other, and the legal words are the well-formed ones: the masks of
the opcode map say of each field what its format says (rules R101 to R106, R112). -/

namespace Sys2Proof

variable {v w : BitVec 32} {r : OpcodeRow} {op : BitVec 8}

/-! ## A command word by its fields (rule R101) -/

/-- A word is its opcode, its four register fields and `z`. -/
theorem word_eq_iff_fields : v = w ↔
    v.extractLsb' 24 8 = w.extractLsb' 24 8 ∧ v.extractLsb' 20 4 = w.extractLsb' 20 4 ∧
    v.extractLsb' 16 4 = w.extractLsb' 16 4 ∧ v.extractLsb' 12 4 = w.extractLsb' 12 4 ∧
    v.extractLsb' 8 4 = w.extractLsb' 8 4 ∧ v.extractLsb' 0 8 = w.extractLsb' 0 8 := by
  simp only [BitVec.toNat_eq, BitVec.extractLsb'_toNat, Nat.shiftRight_eq_div_pow]
  omega

@[simp] theorem fieldD_commandWord (d a b m : RegIdx) : fieldD (commandWord op d a b m) = d := by
  apply Fin.ext
  simp only [fieldD, BitVec.val_toFin, commandWord_field]
  omega

@[simp] theorem fieldA_commandWord (d a b m : RegIdx) : fieldA (commandWord op d a b m) = a := by
  apply Fin.ext
  simp only [fieldA, BitVec.val_toFin, commandWord_field]
  omega

@[simp] theorem fieldB_commandWord (d a b m : RegIdx) : fieldB (commandWord op d a b m) = b := by
  apply Fin.ext
  simp only [fieldB, BitVec.val_toFin, commandWord_field]
  omega

@[simp] theorem fieldM_commandWord (d a b m : RegIdx) : fieldM (commandWord op d a b m) = m := by
  apply Fin.ext
  simp only [fieldM, BitVec.val_toFin, commandWord_field]
  omega

/-! ## The mask of a format (rules R102, R104, R105) -/

/-- The mask of a register field: its top bit where the format uses it, all four bits where it does not. -/
def fieldMask (used : Bool) : BitVec 4 := if used then 0x8 else 0xF

/-- The mask of a format: the opcode, the register fields, `z`. -/
def Format.mask (f : Format) : BitVec 32 :=
  0xFF#8 ++ fieldMask f.usesD ++ fieldMask f.usesA ++ fieldMask f.usesB ++ fieldMask f.usesM ++ 0xFF#8

/-- The register fields and `z` of a word are as a format asks (rule R105). -/
def Format.fieldsOk (f : Format) (v : BitVec 32) : Bool :=
  registerFieldOk f.usesD (v.extractLsb' 20 4) && registerFieldOk f.usesA (v.extractLsb' 16 4) &&
  registerFieldOk f.usesB (v.extractLsb' 12 4) && registerFieldOk f.usesM (v.extractLsb' 8 4) &&
  decide (v.extractLsb' 0 8 = 0)

theorem wellFormedWord_eq_fieldsOk {f : Format} (hf : formatOfOpcode (v.extractLsb' 24 8) = some f) :
    wellFormedWord v = f.fieldsOk v := by
  simp only [wellFormedWord, hf, Format.fieldsOk]

theorem and_fieldMask_eq_zero_iff (used : Bool) (field : BitVec 4) :
    field &&& fieldMask used = 0 ↔ registerFieldOk used field = true := by
  revert used field
  decide

theorem Format.mask_fields (f : Format) :
    f.mask.extractLsb' 24 8 = 0xFF ∧ f.mask.extractLsb' 20 4 = fieldMask f.usesD ∧
    f.mask.extractLsb' 16 4 = fieldMask f.usesA ∧ f.mask.extractLsb' 12 4 = fieldMask f.usesB ∧
    f.mask.extractLsb' 8 4 = fieldMask f.usesM ∧ f.mask.extractLsb' 0 8 = 0xFF := by
  obtain ⟨d, a, b, m⟩ := f
  revert d a b m
  decide

/-- The mask test of a format is the opcode and the test of every field. -/
theorem and_mask_eq_iff (f : Format) :
    v &&& f.mask = op ++ 0#24 ↔ v.extractLsb' 24 8 = op ∧ f.fieldsOk v = true := by
  obtain ⟨hop, hd, ha, hb, hm, hz⟩ := f.mask_fields
  have zeros (lo n : Nat) (h : lo + n ≤ 24) : (op ++ 0#24).extractLsb' lo n = 0 := by
    rw [BitVec.extractLsb'_append_eq_of_add_le h]
    simp
  have opcode : (op ++ 0#24).extractLsb' 24 8 = op := BitVec.extractLsb'_append_eq_left
  have all (x : BitVec 8) : x &&& 0xFF = x := BitVec.and_allOnes
  rw [word_eq_iff_fields]
  simp only [BitVec.extractLsb'_and, hop, hd, ha, hb, hm, hz, all, opcode, zeros,
    and_fieldMask_eq_zero_iff, Format.fieldsOk, Bool.and_eq_true, decide_eq_true_eq, and_assoc,
    Nat.reduceAdd, Nat.reduceLeDiff]

/-! ## The rows of the opcode map (rule R104) -/

/-- The command word of the register indices that a word names in the fields of a format. -/
def Format.wordOf (f : Format) (op : BitVec 8) (v : BitVec 32) : BitVec 32 :=
  commandWord op (if f.usesD then fieldD v else 0) (if f.usesA then fieldA v else 0) (if f.usesB then fieldB v else 0)
    (if f.usesM then fieldM v else 0)

/-- A row of rule R104 says of its command what the format does. -/
structure OpcodeRow.HasFormat (r : OpcodeRow) (f : Format) : Prop where
  format : formatOfOpcode r.op = some f
  mask : r.mask = f.mask
  pattern : r.pattern = r.op ++ 0#24
  encode_build : ∀ v, encode (r.build v) = f.wordOf r.op v

theorem opcodeMap_hasFormat : ∀ r ∈ opcodeMap, ∃ f, r.HasFormat f := by
  simp only [opcodeMap, List.forall_mem_cons]
  refine ⟨⟨formatD, ?_⟩, ⟨formatDA, ?_⟩, ⟨formatAB, ?_⟩, ⟨formatA, ?_⟩, ⟨formatDAB, ?_⟩, ⟨formatDA, ?_⟩, ⟨formatD, ?_⟩,
    ⟨formatDABM, ?_⟩, ⟨formatDABM, ?_⟩, ⟨formatA, ?_⟩, nofun⟩
  all_goals exact ⟨rfl, by decide, by decide, fun _ => rfl⟩

/-- The opcode finds its row. -/
theorem find?_opcodeMap_eq_some_iff :
    opcodeMap.find? (fun r => decide (r.op = op)) = some r ↔ r ∈ opcodeMap ∧ r.op = op := by
  have found : ∀ r ∈ opcodeMap, opcodeMap.find? (fun q => decide (q.op = r.op)) = some r := by
    simp only [opcodeMap, List.forall_mem_cons]
    exact ⟨rfl, rfl, rfl, rfl, rfl, rfl, rfl, rfl, rfl, rfl, nofun⟩
  constructor
  · intro h
    exact ⟨List.mem_of_find?_eq_some h, by simpa using List.find?_some h⟩
  · rintro ⟨hr, rfl⟩
    exact found r hr

/-- Every opcode that has a format has a row: row `n` of the map is opcode `n + 1`. -/
theorem exists_row_of_format {f : Format} (h : formatOfOpcode op = some f) : ∃ r ∈ opcodeMap, r.op = op := by
  have assigned : 1 ≤ op.toNat ∧ op.toNat ≤ 10 := by
    unfold formatOfOpcode at h
    split at h
    case h_11 => cases h
    all_goals omega
  have rows : ∀ n : Fin 10, (opcodeMap[n]).op.toNat = n.val + 1 := by decide
  have hlt : op.toNat - 1 < 10 := by omega
  refine ⟨opcodeMap[op.toNat - 1], List.getElem_mem _, BitVec.eq_of_toNat_eq ?_⟩
  exact (rows ⟨op.toNat - 1, hlt⟩).trans (Nat.sub_add_cancel assigned.1)

/-- The mask test of the row that the opcode finds is well-formedness. -/
theorem and_rowMask_eq_iff (hr : r ∈ opcodeMap) (hop : r.op = v.extractLsb' 24 8) :
    v &&& r.mask = r.pattern ↔ wellFormedWord v = true := by
  obtain ⟨f, hf⟩ := opcodeMap_hasFormat r hr
  rw [hf.mask, hf.pattern, and_mask_eq_iff, wellFormedWord_eq_fieldsOk (hop ▸ hf.format)]
  exact and_iff_right hop.symm

/-! ## Decoding -/

/-- A word decodes to what the row of its opcode builds, exactly if it is well formed (rule R112). -/
theorem decode_eq_ok_iff {i : Instr} :
    decode v = .ok i ↔ ∃ r ∈ opcodeMap, r.op = v.extractLsb' 24 8 ∧ wellFormedWord v = true ∧ r.build v = i := by
  constructor
  · intro h
    unfold decode at h
    split at h
    · cases h
    next r hfind =>
      obtain ⟨hr, hop⟩ := find?_opcodeMap_eq_some_iff.mp hfind
      split at h
      next hmask =>
        cases h
        exact ⟨r, hr, hop, (and_rowMask_eq_iff hr hop).mp hmask, rfl⟩
      · split at h <;> cases h
  · rintro ⟨r, hr, hop, hwf, rfl⟩
    simp only [decode, find?_opcodeMap_eq_some_iff.mpr ⟨hr, hop⟩, (and_rowMask_eq_iff hr hop).mpr hwf, if_true]

/-- A well-formed command word decodes to what the row of its opcode builds. -/
theorem decode_commandWord {d a b m : RegIdx} (hwf : wellFormedWord (commandWord op d a b m) = true)
    (hr : opcodeMap.find? (fun r => decide (r.op = op)) = some r) :
    decode (commandWord op d a b m) = .ok (r.build (commandWord op d a b m)) := by
  obtain ⟨hmem, hop⟩ := find?_opcodeMap_eq_some_iff.mp hr
  exact decode_eq_ok_iff.mpr ⟨r, hmem, hop.trans (commandWord_op op d a b m).symm, hwf, rfl⟩

/-- Settles O2: the word of each command is well formed, its opcode finds the command's row, and the row reads each register
from the field that the encoder puts it in. -/
theorem decodeInvertsEncode : Obligations.DecodeInvertsEncode := by
  intro i
  cases i with
  | zero rd => exact (decode_commandWord (Laws.Encoding.zero rd) rfl).trans (by simp)
  | copy rd ra => exact (decode_commandWord (Laws.Encoding.copy rd ra) rfl).trans (by simp)
  | cmp ra rb => exact (decode_commandWord (Laws.Encoding.cmp ra rb) rfl).trans (by simp)
  | iseven ra => exact (decode_commandWord (Laws.Encoding.iseven ra) rfl).trans (by simp)
  | sub rd ra rb => exact (decode_commandWord (Laws.Encoding.sub rd ra rb) rfl).trans (by simp)
  | shr1 rd ra => exact (decode_commandWord (Laws.Encoding.shr1 rd ra) rfl).trans (by simp)
  | randc rd => exact (decode_commandWord (Laws.Encoding.randc rd) rfl).trans (by simp)
  | mulmod rd ra rb rm => exact (decode_commandWord (Laws.Encoding.mulmod rd ra rb rm) rfl).trans (by simp)
  | powmod rd ra rb rm => exact (decode_commandWord (Laws.Encoding.powmod rd ra rb rm) rfl).trans (by simp)
  | mrtest ra => exact (decode_commandWord (Laws.Encoding.mrtest ra) rfl).trans (by simp)

/-! ## Encoding what has been decoded -/

/-- A register field that is as the format asks holds its own low three bits, or 0 where it is not used. -/
theorem registerField_toNat {used : Bool} {lo : Nat} (h : registerFieldOk used (v.extractLsb' lo 4) = true) :
    (v.extractLsb' lo 4).toNat = (if used then (v.extractLsb' lo 3).toFin else 0 : RegIdx).val := by
  cases used with
  | true =>
    have hlt : (v.extractLsb' lo 4).toNat < 8 := by simpa [registerFieldOk] using h
    simp only [BitVec.extractLsb'_toNat] at hlt
    simp only [if_true, BitVec.val_toFin, BitVec.extractLsb'_toNat]
    omega
  | false =>
    have hzero : v.extractLsb' lo 4 = 0 := by simpa [registerFieldOk] using h
    rw [hzero]
    rfl

/-- A word whose fields are as the format asks is the command word of the register indices it names. -/
theorem Format.wordOf_eq {f : Format} (h : f.fieldsOk v = true) : f.wordOf (v.extractLsb' 24 8) v = v := by
  simp only [Format.fieldsOk, Bool.and_eq_true, decide_eq_true_eq, and_assoc] at h
  obtain ⟨hd, ha, hb, hm, hz⟩ := h
  rw [word_eq_iff_fields]
  refine ⟨commandWord_op .., ?_, ?_, ?_, ?_, ?_⟩ <;> apply BitVec.eq_of_toNat_eq
  · exact (commandWord_fieldD ..).trans (registerField_toNat hd).symm
  · exact (commandWord_fieldA ..).trans (registerField_toNat ha).symm
  · exact (commandWord_fieldB ..).trans (registerField_toNat hb).symm
  · exact (commandWord_fieldM ..).trans (registerField_toNat hm).symm
  · rw [hz]; exact commandWord_fieldZ ..

/-- Settles O3: a legal word is well formed, so that it is the word of the register indices its row reads from it. -/
theorem encodeInvertsDecode : Obligations.EncodeInvertsDecode := by
  intro v i h
  obtain ⟨r, hr, hop, hwf, rfl⟩ := decode_eq_ok_iff.mp h
  obtain ⟨f, hf⟩ := opcodeMap_hasFormat r hr
  rw [wellFormedWord_eq_fieldsOk (hop ▸ hf.format)] at hwf
  rw [hf.encode_build, hop, Format.wordOf_eq hwf]

/-! ## Illegal words (rule R106) -/

/-- A well-formed word is legal: its opcode has a format, so it has a row. -/
theorem exists_decode_of_wellFormedWord (h : wellFormedWord v = true) : ∃ i, decode v = .ok i := by
  cases hf : formatOfOpcode (v.extractLsb' 24 8) with
  | none => simp [wellFormedWord, hf] at h
  | some f =>
    obtain ⟨r, hr, hop⟩ := exists_row_of_format hf
    exact ⟨r.build v, decode_eq_ok_iff.mpr ⟨r, hr, hop, h, rfl⟩⟩

theorem illegal_iff_not_wellFormedWord : (∀ i, decode v ≠ .ok i) ↔ wellFormedWord v = false := by
  constructor
  · intro h
    by_contra hwf
    obtain ⟨i, hi⟩ := exists_decode_of_wellFormedWord (eq_true_of_ne_false hwf)
    exact h i hi
  · intro h i hi
    obtain ⟨-, -, -, hwf, -⟩ := decode_eq_ok_iff.mp hi
    rw [h] at hwf
    cases hwf

/-- Settles O4; the all-zero and the all-ones word are not well formed. -/
theorem illegalWordsAreTheIllFormedOnes : Obligations.IllegalWordsAreTheIllFormedOnes :=
  ⟨fun _ => illegal_iff_not_wellFormedWord, illegal_iff_not_wellFormedWord.mpr (by decide),
    illegal_iff_not_wellFormedWord.mpr (by decide)⟩

/-- Settles O1, each word by its row. -/
theorem specWordsDecode : Obligations.SpecWordsDecode := by
  unfold Obligations.SpecWordsDecode
  decide

end Sys2Proof
end

section
/-! SUPPORT. The offer of a command word and the engine's turn as steps of the machine, and the accept step of every command in
one form (rules R83, R108 to R110). -/

namespace Sys2Proof.Machine

variable {s : State} {i : Instr} {k : RegIdx} {v : BitVec 32} {rest : List Event}

/-! ## The step of an offer and of an engine turn -/

theorem step_offer (ha : s.agenda = .host (.csrWrite 0 v) :: rest) :
    step s = offerCommand v { s with agenda := rest } := step_host ha

theorem step_engine (ha : s.agenda = .engine :: rest) : step s = engineTurn { s with agenda := rest } :=
  step_event s _ rest ha

/-- Settles O5: the offer of a legal word, and the engine's turn with a command in flight, are `exec`. -/
theorem stepRunsTheDecodedCommand : Obligations.StepRunsTheDecodedCommand := by
  refine ⟨fun s v i rest ha hq hd => ?_, fun s f rest ha hf => ?_, fun s f ha hf => ?_⟩
  · exact (step_offer ha).trans (offerCommand_accepted v _ i hq hd)
  · exact (step_engine ha).trans (engineTurn_inFlight _ f hf)
  · exact (step_empty s ha).trans (engineTurn_inFlight s f hf)

/-- Settles O11: the offer of an illegal word is the illegal-command step. -/
theorem illegalWordSetsIll : Obligations.IllegalWordSetsIll := fun _ v e _ ha hq hd =>
  (step_offer ha).trans (offerCommand_rejected v _ e hq hd)

/-! ## The accept step (rule R108) -/

/-- What the accept step latches of the source register number `n` of a command; 0 where it has none (rules R34, R102). -/
def State.operand (s : State) (i : Instr) (n : Nat) : Word := ((sources i)[n]?).elim 0 s.view

theorem State.operand_eq_view {n : Nat} (h : (sources i)[n]? = some k) : s.operand i n = s.view k := by
  rw [State.operand, h, Option.elim_some]

/-- The command in flight after the accept step (rules R50, R108, R197). -/
def acceptedFlight (s : State) (i : Instr) : Flight :=
  Flight.latched i (s.operand i 0) (s.operand i 1) (s.operand i 2) (if isMrtest i then s.rounds else 0) (s.dutyMet i)

/-- The accept step of every command: MRTEST's also sets PHASE and VERDICT (rule R197). -/
theorem acceptStep_eq (s : State) (i : Instr) :
    acceptStep s i = { s.accept (acceptedFlight s i) with
      status := { s.status with
        done := false, ill := false
        phase := if isMrtest i then .start else s.status.phase
        verdict := if isMrtest i then .none else s.status.verdict } } := by
  have duty : s.dutyMet i = (sources i).all s.initialised := rfl
  rw [acceptedFlight, duty]
  cases i with
  | zero | randc => rfl
  | copy | cmp | iseven | sub | shr1 | mulmod | powmod | mrtest =>
    simp only [sources, List.all_cons, List.all_nil, Bool.and_true, ← Bool.and_assoc]
    rfl

theorem exec_quiescent (i : Instr) (hq : s.quiescent) : exec i s = .next (acceptStep s i) := by
  rw [exec_eq_command_flightTurn, command_quiescent i s _ _ hq]

/-- Settles O10: the accept step and the flight it makes, each in its form for all commands. -/
theorem acceptLatchesTheSources : Obligations.AcceptLatchesTheSources := by
  intro i s hq
  refine ⟨acceptStep s i, acceptedFlight s i, exec_quiescent i hq, ?_⟩
  rw [acceptStep_eq]
  exact ⟨rfl, rfl, rfl, rfl, fun _ => State.operand_eq_view, fun _ => State.operand_eq_view,
    fun _ => State.operand_eq_view, fun hmr => if_pos hmr, rfl, rfl, rfl, rfl, rfl, rfl, rfl, rfl⟩

end Sys2Proof.Machine
end

section
/-! SUPPORT. The pseudo-instructions of the host script: LDI, WAIT, and LDS, whose `WAIT` ends whatever its gaps hold
(rule R115). -/

namespace Sys2Proof.Machine

variable {s t u : State} {k : RegIdx} {rest : List Event}

/-! ## The byte writes of LDI and LDS -/

/-- The 64 byte writes of `LDI` make the register the value (rule R115). -/
theorem runSteps_ldiScript {v : Word} (hq : s.quiescent) (ha : s.agenda = ldiScript k v ++ rest) :
    runSteps 64 s = .next { s with agenda := rest, regs := s.regs.set k.val (Reg.full v) k.isLt } := by
  have run := runSteps_memWrites k (fun o => getByte v (BitVec.ofNat 6 o)) (List.range 64) (fun _ => List.mem_range.mp)
    s rest hq ha
  rwa [List.length_range, Reg.withBytes_all _ fun _ _ => rfl] at run

/-- The byte of a value at the place of bit `j` holds that bit. -/
theorem getLsbD_getByte_of_place (v : Word) {j : Nat} (hj : j < 512) :
    (getByte v (BitVec.ofNat 6 (63 - j / 8))).getLsbD (j % 8) = v.getLsbD j := by
  have place : byteShift (BitVec.ofNat 6 (63 - j / 8)) + j % 8 = j := by
    simp only [byteShift, BitVec.toNat_ofNat]
    omega
  simp [getByte, place, Nat.mod_lt]

/-- Writing the 8 low bytes of a value below 2^64 to a register that holds 0 makes it that value. -/
theorem Reg.withBytes_low (v : Limb) :
    (Reg.full 0#512).withBytes (fun o => getByte (v.setWidth 512) (BitVec.ofNat 6 o)) (List.range' 56 8) =
      Reg.full (v.setWidth 512) := by
  refine Reg.ext_bit fun j hj => ?_
  have low : 63 - j / 8 ∈ List.range' 56 8 ↔ j < 64 := by
    rw [List.mem_range'_1]
    omega
  rw [Reg.bit_withBytes _ _ _ (fun o ho => (List.mem_range'_1.mp ho).2) hj, getLsbD_getByte_of_place _ hj,
    Reg.bit_full _ hj, Reg.bit_full _ hj]
  by_cases h : j < 64
  · rw [if_pos (low.mpr h)]
  · have high : v.getLsbD j = false := BitVec.getLsbD_of_ge _ _ (Nat.le_of_not_lt h)
    rw [if_neg (mt low.mp h)]
    simp [high]

/-! ## A poll of WAIT -/

theorem step_wait_over {gaps : List Gap} (ha : s.agenda = .wait gaps :: rest)
    (h : s.status.done = true ∨ s.status.ill = true) :
    step s = .next { s with agenda := rest, returned := s.returned ++ [.word s.statusWord] } :=
  (step_event s _ rest ha).trans (congrArg _ (State.waitPoll_over { s with agenda := rest } gaps h))

theorem step_wait_again {gaps : List Gap} (ha : s.agenda = .wait gaps :: rest) (hdone : s.status.done = false)
    (hill : s.status.ill = false) :
    step s = .next { s with
      agenda := waitAgain gaps ++ rest, returned := s.returned ++ [.word s.statusWord] } := by
  have h : ¬ (s.status.done = true ∨ s.status.ill = true) := by simp [hdone, hill]
  exact (step_event s _ rest ha).trans (congrArg _ (State.waitPoll_again { s with agenda := rest } gaps h))

/-! ## What goes on beside a WAIT -/

/-- `t` is reached from `s` by steps of the machine. -/
def Reaches (s t : State) : Prop := ∃ n, runSteps n s = .next t

theorem Reaches.refl (s : State) : Reaches s s := ⟨0, rfl⟩

theorem Reaches.of_step (h : step s = .next t) : Reaches s t := ⟨1, by simp only [runSteps, h]⟩

theorem Reaches.trans (h : Reaches s t) (h' : Reaches t u) : Reaches s u := by
  obtain ⟨m, hm⟩ := h
  obtain ⟨n, hn⟩ := h'
  exact ⟨m + n, (runSteps_add m n hm).trans hn⟩

/-- `s` after STATUS has been read and words have been delivered, with `agenda` to come. -/
def State.polled (s : State) (agenda : List Event) (polls : List (BitVec 32)) (words : List Limb) : State :=
  { s with agenda := agenda, returned := s.returned ++ polls.map ReadValue.word, source := s.source ++ words }

@[simp] theorem State.polled_polled (agenda agenda' : List Event) (polls polls' : List (BitVec 32)) (words words' : List Limb) :
    (s.polled agenda polls words).polled agenda' polls' words' = s.polled agenda' (polls ++ polls') (words ++ words') := by
  simp [State.polled]

theorem reaches_poll {agenda : List Event} {status : BitVec 32}
    (h : step s = .next { s with agenda := agenda, returned := s.returned ++ [.word status] }) :
    Reaches s (s.polled agenda [status] []) := by
  simpa [State.polled] using Reaches.of_step h

theorem reaches_deliveries (words : List Limb) (ha : s.agenda = words.map Event.deliver ++ rest) :
    Reaches s (s.polled rest [] words) := by
  induction words generalizing s with
  | nil =>
    obtain rfl : s.agenda = rest := ha
    simpa [State.polled] using Reaches.refl s
  | cons w words ih =>
    have deliver : Reaches s (s.polled (words.map Event.deliver ++ rest) [] [w]) := by
      refine Reaches.of_step ((step_event s _ _ ha).trans ?_)
      simp [State.polled, event, State.deliver]
    simpa using deliver.trans (ih rfl)

theorem step_engine_idle (hq : s.quiescent) (ha : s.agenda = .engine :: rest) : step s = .next { s with agenda := rest } :=
  (step_engine ha).trans (engineTurn_idle { s with agenda := rest } hq)

/-- Engine turns of an idle engine only leave the agenda (rule R242). -/
theorem reaches_idleTurns (n : Nat) (hq : s.quiescent) (ha : s.agenda = List.replicate n Event.engine ++ rest) :
    Reaches s (s.polled rest [] []) := by
  induction n generalizing s with
  | zero =>
    obtain rfl : s.agenda = rest := ha
    simpa [State.polled] using Reaches.refl s
  | succ n ih =>
    have turn : Reaches s (s.polled (List.replicate n Event.engine ++ rest) [] []) := by
      simpa [State.polled] using Reaches.of_step (step_engine_idle hq ha)
    simpa using turn.trans (ih hq rfl)

/-! ## The WAIT of LDS -/

/-- ZERO in flight, neither DONE nor ILL 1: what the `WAIT` of `LDS` finds until an engine turn comes. -/
structure ZeroInFlight (k : RegIdx) (s : State) : Prop where
  inFlight : ∃ f, s.flight = some f ∧ f.instr = .zero k
  done : s.status.done = false
  ill : s.status.ill = false

/-- `s` after the complete step of `ZERO Rk` (rule R130). -/
def State.zeroed (s : State) (k : RegIdx) : State := (s.setReg k 0 true).complete

theorem ZeroInFlight.polled (h : ZeroInFlight k s) (agenda : List Event) (polls : List (BitVec 32)) (words : List Limb) :
    ZeroInFlight k (s.polled agenda polls words) := ⟨h.inFlight, h.done, h.ill⟩

theorem reaches_zeroed (h : ZeroInFlight k s) (ha : s.agenda = .engine :: rest) :
    Reaches s ((s.zeroed k).polled rest [] []) := by
  obtain ⟨f, hf, hi⟩ := h.inFlight
  have turn : engineTurn { s with agenda := rest } = .next (flightTurn { s with agenda := rest } f (.zero k)) := by
    rw [engineTurn_inFlight { s with agenda := rest } f hf, hi]
    exact exec_inFlight hf hi
  refine Reaches.of_step ((step_engine ha).trans (turn.trans ?_))
  simp [State.polled, State.zeroed, flightTurn, State.setReg, State.complete]

/-- The `WAIT` of `LDS` ends, with ZERO completed and the events of `rest` to come, whatever polls and deliveries it took. -/
def ZeroWaitEnds (k : RegIdx) (rest : List Event) (s : State) : Prop :=
  ∃ polls words, Reaches s ((s.zeroed k).polled rest polls words)

/-- Polls and deliveries before ZERO completes change only what has been read and the source. -/
theorem ZeroWaitEnds.of_reaches_polled {agenda : List Event} {polls : List (BitVec 32)} {words : List Limb}
    (hs : Reaches s (s.polled agenda polls words)) (h : ZeroWaitEnds k rest (s.polled agenda polls words)) :
    ZeroWaitEnds k rest s := by
  obtain ⟨polls', words', h'⟩ := h
  refine ⟨polls ++ polls', words ++ words', hs.trans ?_⟩
  rw [← State.polled_polled agenda]
  exact h'

/-- With an engine turn to come, ZERO completes, the turns after it pass idle, and the next poll reads DONE. -/
theorem zeroWaitEnds_of_turns {gaps : List Gap} (n : Nat) (h : ZeroInFlight k s)
    (ha : s.agenda = List.replicate (n + 1) Event.engine ++ .wait gaps :: rest) : ZeroWaitEnds k rest s := by
  have zero : Reaches s ((s.zeroed k).polled (List.replicate n .engine ++ .wait gaps :: rest) [] []) := reaches_zeroed h ha
  have idle : Reaches ((s.zeroed k).polled (List.replicate n .engine ++ .wait gaps :: rest) [] [])
      ((s.zeroed k).polled (.wait gaps :: rest) [] []) := by
    simpa using reaches_idleTurns n (s := (s.zeroed k).polled _ [] []) rfl rfl
  have poll := reaches_poll (step_wait_over (s := (s.zeroed k).polled (.wait gaps :: rest) [] []) rfl (.inl rfl))
  rw [State.polled_polled] at poll
  exact ⟨_, _, zero.trans (idle.trans poll)⟩

/-- The `WAIT` of `LDS` ends: a gap with an engine turn completes ZERO, a gap without one leads to the next gap, and after the
last gap an engine turn follows (assumption log 17). -/
theorem zeroWaitEnds (gaps : List Gap) (h : ZeroInFlight k s) (ha : s.agenda = .wait gaps :: rest) :
    ZeroWaitEnds k rest s := by
  induction gaps generalizing s with
  | nil =>
    have poll := reaches_poll (step_wait_again ha h.done h.ill)
    exact .of_reaches_polled poll (zeroWaitEnds_of_turns 0 (h.polled _ _ _) rfl)
  | cons g gaps ih =>
    have poll : Reaches s (s.polled
        (g.delivered.map Event.deliver ++ (List.replicate g.turns Event.engine ++ .wait gaps :: rest)) [s.statusWord] []) := by
      simpa [waitAgain, Gap.events] using reaches_poll (step_wait_again ha h.done h.ill)
    refine .of_reaches_polled poll (.of_reaches_polled (reaches_deliveries g.delivered rfl) ?_)
    cases hturns : g.turns with
    | zero => exact ih ((h.polled _ _ _).polled _ _ _) rfl
    | succ n => exact zeroWaitEnds_of_turns n ((h.polled _ _ _).polled _ _ _) rfl

/-! ## LDS -/

/-- The ZERO of `LDS` is accepted (rules R108, R113). -/
theorem step_issue_zero (hq : s.quiescent) (ha : s.agenda = issue (.zero k) :: rest) :
    step s = .next ({ s with agenda := rest }.acceptD (.zero k)) := by
  have accepted : exec (.zero k) { s with agenda := rest } = .next ({ s with agenda := rest }.acceptD (.zero k)) :=
    exec_quiescent _ hq
  exact (step_offer ha).trans ((offerCommand_accepted _ { s with agenda := rest } _ hq (decodeInvertsEncode _)).trans accepted)

/-- `LDS` reaches its end: ZERO is accepted, its `WAIT` ends, and the 8 low bytes are written (rule R115). -/
theorem reaches_ldsScript {v : Limb} {gaps : List Gap} (hq : s.quiescent) (ha : s.agenda = ldsScript k v gaps ++ rest) :
    ∃ polls words, Reaches s ({ s.afterCommand (.zero k) with
      regs := s.regs.set k.val (Reg.full (v.setWidth 512)) k.isLt }.polled rest polls words) := by
  have accept := Reaches.of_step (step_issue_zero hq ha)
  obtain ⟨polls, words, wait⟩ := zeroWaitEnds (k := k) gaps (s := State.acceptD { s with agenda := .wait gaps :: _ } (.zero k))
    ⟨⟨_, rfl, rfl⟩, rfl, rfl⟩ rfl
  refine ⟨polls, words, accept.trans (wait.trans ⟨8, ?_⟩)⟩
  refine (runSteps_memWrites k (fun o => getByte (v.setWidth 512) (BitVec.ofNat 6 o)) (List.range' 56 8)
    (fun o ho => (List.mem_range'_1.mp ho).2) _ rest rfl rfl).trans ?_
  have hflight : s.flight = none := hq
  simp [State.polled, State.zeroed, State.afterCommand, State.acceptD, State.accept, State.complete, State.setReg,
    hflight, Reg.withBytes_low]

/-- Settles O53: the byte writes of `LDI`, the three ways a poll of `WAIT` goes on, and the end that `LDS` reaches. -/
theorem ldiLoadsTheValue : Obligations.LdiLoadsTheValue := by
  refine ⟨fun s k v rest hq ha => runSteps_ldiScript hq ha, fun s gaps rest ha => ⟨step_wait_over ha, ?_⟩,
    fun s k v gaps rest hq ha => ?_⟩
  · intro hdone hill
    have again := step_wait_again ha hdone hill
    constructor
    · rintro rfl
      exact again
    · rintro g later rfl
      simpa [waitAgain, Gap.events] using again
  · obtain ⟨polls, words, n, run⟩ := reaches_ldsScript hq ha
    exact ⟨n, polls, words, run⟩

end Sys2Proof.Machine
end

section
/-! SUPPORT. What the primitives compute, as functions of values (rules R132 to R141): comparison, parity, difference with
borrow, and the shift by one. -/

namespace Sys2Proof.Machine

/-! ## Comparison (rules R132, R133) -/

/-- The comparison of two numbers, of which CMP's is the one of its operands' values. -/
def compareValues (a b : Nat) : CmpResult :=
  if b < a then .greater else if a = b then .equal else .less

theorem compareWords_eq (a b : Word) : compareWords a b = compareValues a.toNat b.toNat := rfl

theorem compareValues_eq_greater_iff {a b : Nat} : compareValues a b = .greater ↔ b < a := by
  unfold compareValues
  split_ifs with hlt heq <;> simp [hlt]

theorem compareValues_eq_equal_iff {a b : Nat} : compareValues a b = .equal ↔ a = b := by
  unfold compareValues
  split_ifs with hlt heq
  · simp only [false_iff]; omega
  · simp [heq]
  · simp [heq]

theorem compareValues_eq_less_iff {a b : Nat} : compareValues a b = .less ↔ a < b := by
  unfold compareValues
  split_ifs with hlt heq
  · simp only [false_iff]; omega
  · simp only [false_iff]; omega
  · simp only [true_iff]; omega

/-- The comparison asked in the other order: less first. -/
theorem compareValues_eq_less_first (a b : Nat) :
    compareValues a b = if a < b then .less else if a = b then .equal else .greater := by
  split_ifs with hlt heq
  · exact compareValues_eq_less_iff.mpr hlt
  · exact compareValues_eq_equal_iff.mpr heq
  · exact compareValues_eq_greater_iff.mpr (by omega)

/-- Settles O24: the comparison of words is that of their values, and values are totally ordered. -/
theorem compareIsATotalOrder : Obligations.CompareIsATotalOrder := by
  simp only [Obligations.CompareIsATotalOrder, compareWords_eq]
  exact ⟨fun _ _ => compareValues_eq_greater_iff.trans compareValues_eq_less_iff.symm,
    fun _ _ => compareValues_eq_equal_iff.trans BitVec.toNat_inj,
    fun _ _ _ hab hbc => compareValues_eq_less_iff.mpr
      ((compareValues_eq_less_iff.mp hab).trans (compareValues_eq_less_iff.mp hbc))⟩

/-! ## Parity, difference and shift (rules R134 to R141) -/

theorem isEven_eq (a : Word) : isEven a = decide (a.toNat % 2 = 0) := by
  rw [isEven, BitVec.getLsbD, Nat.testBit_zero]
  rcases Nat.mod_two_eq_zero_or_one a.toNat with h | h <;> simp [h]

/-- The difference and the borrow together: a borrow stands for 2^512 (rules R136, R137). -/
theorem difference_toNat_add (a b : Word) :
    (difference a b).toNat + b.toNat = a.toNat + 2 ^ 512 * (borrowOut a b).toNat := by
  have hb := b.isLt
  by_cases hlt : a.toNat < b.toNat
  · have wraps : (difference a b).toNat = 2 ^ 512 - (b.toNat - a.toNat) := BitVec.toNat_sub_of_lt hlt
    rw [wraps, borrowOut, decide_eq_true hlt, Bool.toNat_true]
    omega
  · have hle : b.toNat ≤ a.toNat := Nat.le_of_not_lt hlt
    have noBorrow : (difference a b).toNat = a.toNat - b.toNat := BitVec.toNat_sub_of_le hle
    rw [noBorrow, borrowOut, decide_eq_false hlt, Bool.toNat_false]
    omega

@[simp] theorem shiftRight1_toNat (a : Word) : (shiftRight1 a).toNat = a.toNat / 2 := by
  rw [shiftRight1, BitVec.toNat_ushiftRight, Nat.shiftRight_eq_div_pow, Nat.pow_one]

theorem shiftRight1_iterate_toNat (k : Nat) (a : Word) : (shiftRight1^[k] a).toNat = a.toNat / 2 ^ k := by
  induction k with
  | zero => rw [Function.iterate_zero_apply, Nat.pow_zero, Nat.div_one]
  | succ k ih => rw [Function.iterate_succ_apply', shiftRight1_toNat, ih, Nat.div_div_eq_div_mul, Nat.pow_succ]

/-- Settles O28: each shift halves; bit 0 of the result is bit 1 of any value, even or not. -/
theorem repeatedShiftDividesByPowersOfTwo : Obligations.RepeatedShiftDividesByPowersOfTwo :=
  ⟨shiftRight1_iterate_toNat, fun a _ => BitVec.getLsbD_ushiftRight a 1 0⟩

end Sys2Proof.Machine
end

section
/-! SUPPORT. The word-level algorithms of the primitives agree with their values (rules R132, R136, R140): each is a fact about
the value of a list of words, by induction on the list. -/

namespace Sys2Proof.Machine

variable {as bs ws : List Limb}

/-! ## The words of a value and the value of words (rule R16) -/

theorem limbsValue_append (as bs : List Limb) :
    limbsValue (as ++ bs) = limbsValue as + 2 ^ (64 * as.length) * limbsValue bs := by
  induction as with
  | nil => simp [limbsValue]
  | cons a as ih =>
    rw [List.cons_append, limbsValue, ih, limbsValue, List.length_cons, Nat.mul_succ, Nat.pow_add]
    ring

theorem eq_of_limbsValue_eq (hlen : as.length = bs.length) (h : limbsValue as = limbsValue bs) : as = bs := by
  induction as generalizing bs with
  | nil => exact (List.length_eq_zero_iff.mp hlen.symm).symm
  | cons a as ih =>
    cases bs with
    | nil => cases hlen
    | cons b bs =>
      simp only [limbsValue] at h
      have ha : a.toNat < 2 ^ 64 := a.isLt
      have hb : b.toNat < 2 ^ 64 := b.isLt
      have head : a = b := BitVec.eq_of_toNat_eq (by omega)
      have tail : as = bs := ih (Nat.succ.inj hlen) (by omega)
      rw [head, tail]

/-- The value of `n` words of `v` from word `k` on. -/
theorem limbsValue_extract (v : Word) (k n : Nat) :
    limbsValue ((List.range' k n).map fun i => v.extractLsb' (64 * i) 64) = v.toNat / 2 ^ (64 * k) % 2 ^ (64 * n) := by
  induction n generalizing k with
  | zero => simp [limbsValue, Nat.mod_one]
  | succ n ih =>
    rw [List.range'_succ, List.map_cons, limbsValue, ih, BitVec.extractLsb'_toNat, Nat.shiftRight_eq_div_pow,
      Nat.mul_succ 64 k, Nat.pow_add, ← Nat.div_div_eq_div_mul, Nat.mul_succ, Nat.add_comm (64 * n), Nat.pow_add,
      Nat.mod_mul]

@[simp] theorem limbs_length (v : Word) : (limbs v).length = 8 := by simp [limbs]

@[simp] theorem limbsValue_limbs (v : Word) : limbsValue (limbs v) = v.toNat := by
  rw [limbs, List.range_eq_range', limbsValue_extract, Nat.mul_zero, Nat.pow_zero, Nat.div_one]
  exact Nat.mod_eq_of_lt v.isLt

/-- Eight words with the value of `v` are its words. -/
theorem eq_limbs {v : Word} (hlen : ws.length = 8) (hvalue : limbsValue ws = v.toNat) : ws = limbs v :=
  eq_of_limbsValue_eq (hlen.trans (limbs_length v).symm) (hvalue.trans (limbsValue_limbs v).symm)

/-! ## Comparison from the most significant word down (rule R132) -/

/-- A greater most significant word decides, whatever the words below it are. -/
theorem add_mul_lt_add_mul {x y p a b : Nat} (hy : y < p) (hba : b < a) : y + p * b < x + p * a :=
  calc y + p * b < p * (b + 1) := by rw [Nat.mul_succ, Nat.add_comm]; exact Nat.add_lt_add_left hy _
    _ ≤ p * a := Nat.mul_le_mul_left p hba
    _ ≤ x + p * a := Nat.le_add_left _ x

theorem compareLimbs_eq (hlen : as.length = bs.length) :
    compareLimbs as bs = compareValues (limbsValue as.reverse) (limbsValue bs.reverse) := by
  induction as generalizing bs with
  | nil =>
    rw [List.length_eq_zero_iff.mp hlen.symm]
    rfl
  | cons a as ih =>
    cases bs with
    | nil => cases hlen
    | cons b bs =>
      have hlen' : as.length = bs.length := Nat.succ.inj hlen
      have has : limbsValue as.reverse < 2 ^ (64 * as.length) := by simpa using limbsValue_lt as.reverse
      have hbs : limbsValue bs.reverse < 2 ^ (64 * as.length) := by simpa [hlen'] using limbsValue_lt bs.reverse
      have top (w : Limb) : limbsValue [w] = w.toNat := by simp [limbsValue]
      simp only [compareLimbs, List.reverse_cons, limbsValue_append, List.length_reverse, top, ← hlen']
      split_ifs with heq hlt
      · subst heq
        simp only [ih hlen', compareValues, Nat.add_lt_add_iff_right, Nat.add_right_cancel_iff]
      · exact (compareValues_eq_greater_iff.mpr (add_mul_lt_add_mul hbs hlt)).symm
      · have hne : a.toNat ≠ b.toNat := fun e => heq (BitVec.eq_of_toNat_eq e)
        exact (compareValues_eq_less_iff.mpr (add_mul_lt_add_mul has (by omega))).symm

/-- Settles O25: the scan of words is the comparison of the values they make. -/
theorem wordScanComparesTheValues : Obligations.WordScanComparesTheValues := by
  intro a b
  rw [compareLimbs_eq (by simp), List.reverse_reverse, List.reverse_reverse, limbsValue_limbs, limbsValue_limbs,
    compareWords_eq]

/-! ## Subtraction with borrow from word 0 up (rule R136) -/

/-- The 128-bit intermediate of one word. -/
def limbDifference (a b : Limb) (borrow : Bool) : BitVec 128 :=
  a.setWidth 128 - b.setWidth 128 - (BitVec.ofBool borrow).setWidth 128

theorem subtractLimbs_cons (a b : Limb) (as bs : List Limb) (borrow : Bool) :
    subtractLimbs (a :: as) (b :: bs) borrow =
      ((limbDifference a b borrow).setWidth 64 :: (subtractLimbs as bs ((limbDifference a b borrow).getLsbD 64)).1,
        (subtractLimbs as bs ((limbDifference a b borrow).getLsbD 64)).2) := rfl

/-- One word: bit 64 of the intermediate is the borrow out, which stands for 2^64. -/
theorem limbDifference_spec (a b : Limb) (borrow : Bool) :
    ((limbDifference a b borrow).setWidth 64).toNat + b.toNat + borrow.toNat =
      a.toNat + 2 ^ 64 * ((limbDifference a b borrow).getLsbD 64).toNat := by
  have ha : a.toNat < 2 ^ 64 := a.isLt
  have hb : b.toNat < 2 ^ 64 := b.isLt
  have hc : borrow.toNat < 2 := borrow.toNat_lt
  have value : (limbDifference a b borrow).toNat = (a.toNat + 2 ^ 128 - b.toNat - borrow.toNat) % 2 ^ 128 := by
    simp only [limbDifference, BitVec.toNat_sub, BitVec.toNat_setWidth, BitVec.toNat_ofBool]
    omega
  rw [BitVec.toNat_setWidth, value, BitVec.getLsbD, Nat.toNat_testBit, value]
  omega

theorem subtractLimbs_length (hlen : as.length = bs.length) (borrow : Bool) :
    (subtractLimbs as bs borrow).1.length = as.length := by
  induction as generalizing bs borrow with
  | nil => rfl
  | cons a as ih =>
    cases bs with
    | nil => cases hlen
    | cons b bs => rw [subtractLimbs_cons, List.length_cons, ih (Nat.succ.inj hlen), List.length_cons]

/-- The difference words and the borrow out, which stands for the place above the last word. -/
theorem subtractLimbs_spec (hlen : as.length = bs.length) (borrow : Bool) :
    limbsValue (subtractLimbs as bs borrow).1 + limbsValue bs + borrow.toNat =
      limbsValue as + 2 ^ (64 * as.length) * (subtractLimbs as bs borrow).2.toNat := by
  induction as generalizing bs borrow with
  | nil =>
    rw [List.length_eq_zero_iff.mp hlen.symm]
    simp [subtractLimbs, limbsValue]
  | cons a as ih =>
    cases bs with
    | nil => cases hlen
    | cons b bs =>
      have word := limbDifference_spec a b borrow
      have rest := ih (Nat.succ.inj hlen) ((limbDifference a b borrow).getLsbD 64)
      rw [subtractLimbs_cons, List.length_cons, Nat.mul_succ, Nat.pow_add]
      simp only [limbsValue]
      linarith only [word, rest]

/-- A difference below `p` and its borrow are determined by the operands. -/
theorem difference_borrow_unique {p a b d d' : Nat} {c c' : Bool} (hd : d < p) (hd' : d' < p)
    (h : d + b = a + p * c.toNat) (h' : d' + b = a + p * c'.toNat) : d = d' ∧ c = c' := by
  cases c <;> cases c' <;> simp only [Bool.toNat_false, Bool.toNat_true, Nat.mul_zero, Nat.mul_one] at h h'
  · exact ⟨by omega, rfl⟩
  · omega
  · omega
  · exact ⟨by omega, rfl⟩

/-- Settles O26: the words and the borrow out meet the equation that determines the difference and BORROW. -/
theorem wordwiseSubtractionAgrees : Obligations.WordwiseSubtractionAgrees := by
  intro a b
  have hlen : (subtractLimbs (limbs a) (limbs b) false).1.length = 8 := by
    rw [subtractLimbs_length (by simp), limbs_length]
  have words : limbsValue (subtractLimbs (limbs a) (limbs b) false).1 + b.toNat =
      a.toNat + 2 ^ 512 * (subtractLimbs (limbs a) (limbs b) false).2.toNat := by
    simpa using subtractLimbs_spec (as := limbs a) (bs := limbs b) (by simp) false
  have bound : limbsValue (subtractLimbs (limbs a) (limbs b) false).1 < 2 ^ 512 := by
    simpa [hlen] using limbsValue_lt (subtractLimbs (limbs a) (limbs b) false).1
  obtain ⟨value, borrow⟩ := difference_borrow_unique bound (difference a b).isLt words (difference_toNat_add a b)
  exact Prod.ext (eq_limbs hlen value) borrow

/-! ## Shift right by one (rule R140) -/

/-- One word of the shift: its own bits one place down, the low bit of the next word on top. -/
theorem shiftRight1_limb_toNat (w next : Limb) :
    ((w >>> 1) ||| ((next &&& 1) <<< 63)).toNat = w.toNat / 2 + 2 ^ 63 * (next.toNat % 2) := by
  have hw : w.toNat / 2 < 2 ^ 63 := by have := w.isLt; omega
  have low : (next &&& 1).toNat = next.toNat % 2 := by
    rw [BitVec.toNat_and, show (1 : Limb).toNat = 1 from rfl, Nat.and_one_is_mod]
  have up : ((next &&& 1) <<< 63).toNat = 2 ^ 63 * (next.toNat % 2) := by
    rw [BitVec.toNat_shiftLeft, low, Nat.shiftLeft_eq]
    omega
  rw [BitVec.toNat_or, up, BitVec.toNat_ushiftRight, Nat.shiftRight_eq_div_pow, Nat.pow_one, Nat.or_comm,
    ← Nat.two_pow_add_eq_or_of_lt hw, Nat.add_comm]

theorem headD_toNat_mod_two (ws : List Limb) : (ws.headD 0).toNat % 2 = limbsValue ws % 2 := by
  cases ws with
  | nil => rfl
  | cons w ws =>
    rw [List.headD_cons, limbsValue]
    omega

theorem shiftRight1Limbs_length (ws : List Limb) : (shiftRight1Limbs ws).length = ws.length := by
  induction ws with
  | nil => rfl
  | cons w ws ih => rw [shiftRight1Limbs, List.length_cons, ih, List.length_cons]

theorem limbsValue_shiftRight1Limbs (ws : List Limb) : limbsValue (shiftRight1Limbs ws) = limbsValue ws / 2 := by
  induction ws with
  | nil => rfl
  | cons w ws ih =>
    rw [shiftRight1Limbs, limbsValue, ih, shiftRight1_limb_toNat, headD_toNat_mod_two, limbsValue]
    omega

/-- Settles O27: the shifted words have the value of the shifted value. -/
theorem wordwiseShiftAgrees : Obligations.WordwiseShiftAgrees := fun a =>
  eq_limbs (by rw [shiftRight1Limbs_length, limbs_length])
    (by rw [limbsValue_shiftRight1Limbs, limbsValue_limbs, shiftRight1_toNat])

end Sys2Proof.Machine
end

section
/-! SUPPORT. The whole runs of ZERO, COPY, CMP, ISEVEN, SUB and SHR1: an accept step, then the one turn that completes
(rules R108, R109, R130 to R139). -/

namespace Sys2Proof.Machine

variable {s : State}

/-- The first two steps of a command other than MRTEST: its accept step, and its turn on what that latched. -/
theorem exec_accept_turn (i : Instr) (hq : s.quiescent) (hmr : isMrtest i = false) :
    ∃ a, exec i s = .next a ∧ exec i a = .next (flightTurn (s.accept (acceptedFlight s i)) (acceptedFlight s i) i) := by
  have accepted : acceptStep s i = s.accept (acceptedFlight s i) := by
    rw [acceptStep_eq, hmr]
    rfl
  exact ⟨_, (exec_quiescent i hq).trans (congrArg _ accepted), exec_inFlight rfl rfl⟩

/-- The accept step and the complete step's common part are all that `afterCommand` says (rules R108, R109). -/
theorem complete_accept (i : Instr) (hq : s.quiescent) : (s.accept (acceptedFlight s i)).complete = s.afterCommand i := by
  have hflight : s.flight = none := hq
  simp only [State.complete, State.accept, State.afterCommand, hflight, acceptedFlight, Flight.latched_instr]

/-- A run that writes a register and no flag. -/
theorem complete_setReg_accept (i : Instr) (rd : RegIdx) (v : Word) (ok : Bool) (hq : s.quiescent) :
    ((s.accept (acceptedFlight s i)).setReg rd v ok).complete =
      { s.afterCommand i with regs := s.regs.set rd.val (Reg.result v ok) rd.isLt } := by
  rw [← complete_accept i hq]
  rfl

/-- Settles O18: the run writes the register 0. -/
theorem zeroClearsItsRegister : Obligations.ZeroClearsItsRegister := by
  intro rd s hq
  obtain ⟨a, accept, turn⟩ := exec_accept_turn (.zero rd) hq rfl
  exact ⟨a, accept, turn.trans (congrArg _ (complete_setReg_accept _ rd 0 true hq))⟩

/-- Settles O19: the value latched from the source is written. -/
theorem copyCopiesTheValue : Obligations.CopyCopiesTheValue := by
  intro rd ra s hq
  obtain ⟨a, accept, turn⟩ := exec_accept_turn (.copy rd ra) hq rfl
  exact ⟨a, accept, turn.trans (congrArg _ (complete_setReg_accept _ rd (s.view ra) _ hq))⟩

/-- Settles O20: CMP receives the comparison of the latched values. -/
theorem cmpComparesUnsigned : Obligations.CmpComparesUnsigned := by
  intro ra rb s hq
  obtain ⟨a, accept, turn⟩ := exec_accept_turn (.cmp ra rb) hq rfl
  refine ⟨a, accept, turn.trans (congrArg _ ?_)⟩
  rw [← compareValues_eq_less_first, ← compareWords_eq, ← complete_accept _ hq]
  rfl

/-- Settles O21: EVEN receives the parity of the latched value. -/
theorem isevenTestsParity : Obligations.IsevenTestsParity := by
  intro ra s hq
  obtain ⟨a, accept, turn⟩ := exec_accept_turn (.iseven ra) hq rfl
  refine ⟨a, accept, turn.trans (congrArg _ ?_)⟩
  rw [← isEven_eq, ← complete_accept _ hq]
  rfl

/-- Settles O22: the difference and BORROW are tied by one equation, read on both sides of A = B. -/
theorem subSubtractsWithBorrow : Obligations.SubSubtractsWithBorrow := by
  intro rd ra rb s hq
  obtain ⟨a, accept, turn⟩ := exec_accept_turn (.sub rd ra rb) hq rfl
  have value := difference_toNat_add (s.view ra) (s.view rb)
  refine ⟨a, difference (s.view ra) (s.view rb), accept, turn.trans (congrArg _ ?_), fun hle => ?_, fun hlt => ?_⟩
  · rw [← complete_accept _ hq]
    rfl
  · rw [borrowOut, decide_eq_false (Nat.not_lt.mpr hle), Bool.toNat_false] at value
    omega
  · rw [borrowOut, decide_eq_true hlt, Bool.toNat_true] at value
    omega

/-- Settles O23: the halved latched value is written. -/
theorem shr1HalvesTheValue : Obligations.Shr1HalvesTheValue := by
  intro rd ra s hq
  obtain ⟨a, accept, turn⟩ := exec_accept_turn (.shr1 rd ra) hq rfl
  exact ⟨a, shiftRight1 (s.view ra), accept, turn.trans (congrArg _ (complete_setReg_accept _ rd _ _ hq)),
    shiftRight1_toNat _⟩

end Sys2Proof.Machine
end

section
/-! SUPPORT. RANDC: a run of pulls, the complete step after the eighth, and the candidate it makes (rules R87, R160, R161). -/

namespace Sys2Proof.Machine

variable {i : Instr} {s t : State} {f : Flight} {rd : RegIdx}

/-! ## Steps and pulls of a run -/

theorem finishRun_inFlight (hf : s.flight = some f) (hi : f.instr = i) (hexec : exec i s = .next t) (n : Nat) :
    finishRun (n + 1) s = finishRun n t := by
  simp only [finishRun, hf, hi, hexec]

theorem commandRun_quiescent (i : Instr) (hq : s.quiescent) (n : Nat) :
    commandRun i (n + 1) s = finishRun n (acceptStep s i) := by
  simp only [commandRun, exec_quiescent i hq]

/-- `s` after the command in flight as `f` has pulled the words `ws`, with `rest` left in the source (rule R87). -/
def State.pulled (s : State) (f : Flight) (ws rest : List Limb) : State :=
  { s with source := rest, ridx := s.ridx + ws.length, flight := some { f with draws := f.draws ++ ws } }

@[simp] theorem State.pulled_flight (s : State) (f : Flight) (ws rest : List Limb) :
    (s.pulled f ws rest).flight = some { f with draws := f.draws ++ ws } := rfl

/-- A command that pulls takes the next words, one a step, up to the eighth (rules R87, R160, R204). -/
theorem finishRun_pulls {ws rest : List Limb} (hf : s.flight = some f)
    (hi : (∃ rd, f.instr = .randc rd) ∨ ((∃ ra, f.instr = .mrtest ra) ∧ s.status.phase = .roundInProgress))
    (hlength : f.draws.length + ws.length ≤ 8) (hsource : s.source = ws ++ rest) (n : Nat) :
    finishRun (n + ws.length) s = finishRun n (s.pulled f ws rest) := by
  induction ws generalizing s f with
  | nil =>
    obtain rfl : s.source = rest := hsource
    simp [State.pulled, ← hf]
  | cons w ws ih =>
    rw [List.length_cons] at hlength
    have hlt : f.draws.length < 8 := by omega
    have pull : exec f.instr s = .next (s.pulled f [w] (ws ++ rest)) :=
      (pullWaitsForTheSource.1 _ s f hf rfl hlt hi).2 w (ws ++ rest) hsource
    have hlength' : (f.draws ++ [w]).length + ws.length ≤ 8 := by
      rw [List.length_append, List.length_singleton]
      omega
    rw [List.length_cons, ← Nat.add_assoc, finishRun_inFlight hf rfl pull,
      ih (s := s.pulled f [w] (ws ++ rest)) rfl hi hlength' rfl]
    simp [State.pulled, Nat.add_assoc, Nat.add_comm 1]

/-! ## The complete step of RANDC -/

/-- With eight words drawn RANDC writes its candidate and completes (rules R109, R160). -/
theorem exec_randc_drawn (hf : s.flight = some f) (hi : f.instr = .randc rd) (hdrawn : f.draws.length = 8) :
    exec (.randc rd) s = .next (s.setReg rd (candidateOf f.draws) true).complete := by
  have full : ¬ f.draws.length < Config.numWords := by simp [hdrawn, Config.numWords]
  exact (exec_inFlight hf hi).trans (congrArg _ (if_neg full))

/-- A run that pulls words and writes a register. -/
theorem complete_setReg_pulled (i : Instr) (f : Flight) (rd : RegIdx) (v : Word) (ok : Bool) (ws rest : List Limb)
    (hq : s.quiescent) :
    (((s.accept (acceptedFlight s i)).pulled f ws rest).setReg rd v ok).complete = { s.afterCommand i with
      regs := s.regs.set rd.val (Reg.result v ok) rd.isLt, source := rest, ridx := s.ridx + ws.length } :=
  congrArg (fun t : State => { t with source := rest, ridx := s.ridx + ws.length })
    (complete_setReg_accept i rd v ok hq)

/-- RANDC in flight with the words still to draw delivered: it pulls them, and completes on the eight (rule R160). -/
theorem finishRun_randc {ws rest : List Limb} (hf : s.flight = some f) (hi : f.instr = .randc rd)
    (hdrawn : (f.draws ++ ws).length = 8) (hsource : s.source = ws ++ rest) :
    finishRun (1 + ws.length) s =
      .next ((s.pulled f ws rest).setReg rd (candidateOf (f.draws ++ ws)) true).complete := by
  have bound : f.draws.length + ws.length ≤ 8 := by rw [← List.length_append, hdrawn]
  have pulls := finishRun_pulls hf (.inl ⟨rd, hi⟩) bound hsource 1
  have flight := s.pulled_flight f ws rest
  exact pulls.trans (finishRun_inFlight flight hi (exec_randc_drawn flight hi hdrawn) 0)

/-- Settles O29: the accept step, then the run of RANDC in flight. -/
theorem randcBuildsACandidate : Obligations.RandcBuildsACandidate := by
  intro rd s ws rest hq hlength hsource
  have accept := commandRun_quiescent (.randc rd) hq (1 + ws.length)
  have run := finishRun_randc (s := s.accept (acceptedFlight s (.randc rd))) rfl rfl hlength hsource
  have result := complete_setReg_pulled (.randc rd) (acceptedFlight s (.randc rd)) rd (candidateOf ws) true ws rest hq
  rw [hlength] at accept run result
  exact accept.trans (run.trans (congrArg _ result))

/-! ## The candidate (rule R161) -/

theorem candidateOf_odd (draws : List Limb) : (candidateOf draws).toNat % 2 = 1 := by
  have bit : (candidateOf draws).getLsbD 0 = true := by simp [candidateOf]
  rwa [BitVec.getLsbD, Nat.testBit_zero, decide_eq_true_eq] at bit

theorem two_pow_le_candidateOf (draws : List Limb) : 2 ^ 511 ≤ (candidateOf draws).toNat := by
  have bit : (candidateOf draws).getLsbD 511 = true := by simp [candidateOf]
  exact Nat.ge_two_pow_of_testBit (i := 511) bit

/-- Settles O30: the complete step writes the candidate, whose bits 0 and 511 are 1 whatever was drawn. -/
theorem randcCompletesOddAndFullWidth : Obligations.RandcCompletesOddAndFullWidth := by
  intro rd s f hf hi hdrawn
  have wide := two_pow_le_candidateOf f.draws
  have odd := candidateOf_odd f.draws
  exact ⟨candidateOf f.draws, exec_randc_drawn hf hi hdrawn, wide, odd, by omega⟩

end Sys2Proof.Machine
end

section
/-! SUPPORT. The arithmetic of MULMOD: its laws, and the two algorithms of its word level, the schoolbook product and the
reduction by repeated subtraction (rules R170 to R176). -/

namespace Sys2Proof.Machine

variable {a b c a' b' m r : Word}

/-! ## The laws of `mulmod` (rules R171, R176) -/

theorem mulmod_eq_some_iff (hm : m ≠ 0) : mulmod a b m = some r ↔ r.toNat = a.toNat * b.toNat % m.toNat := by
  obtain ⟨x, hx, value⟩ := mulmod_value (a := a) (b := b) hm
  rw [hx, Option.some_inj, ← value, eq_comm, BitVec.toNat_inj]

/-- The factors matter only through the remainder of their product. -/
theorem mulmod_congr (h : a.toNat * b.toNat % m.toNat = a'.toNat * b'.toNat % m.toNat) :
    mulmod a b m = mulmod a' b' m := by
  rw [mulmod, mulmod, h]

theorem mulmod_comm (a b m : Word) : mulmod a b m = mulmod b a m :=
  mulmod_congr (by rw [Nat.mul_comm])

theorem mulmod_zero (a : Word) (hm : m ≠ 0) : mulmod a 0 m = some 0 := by
  rw [mulmod_eq_some_iff hm, BitVec.ofNat_eq_ofNat, BitVec.toNat_zero, Nat.mul_zero, Nat.zero_mod]

theorem mulmod_one (a : Word) (hm : m ≠ 0) : mulmod a 1 m = some (a % m) := by
  rw [mulmod_eq_some_iff hm, BitVec.ofNat_eq_ofNat, BitVec.toNat_one (by decide), Nat.mul_one, BitVec.toNat_umod]

theorem mulmod_mod_mod (a b m : Word) : mulmod (a % m) (b % m) m = mulmod a b m :=
  mulmod_congr (by rw [BitVec.toNat_umod, BitVec.toNat_umod, ← Nat.mul_mod])

theorem mulmod_assoc (a b c : Word) (hm : m ≠ 0) :
    (mulmod a b m).bind (mulmod · c m) = (mulmod b c m).bind (mulmod a · m) := by
  obtain ⟨x, hx, xvalue⟩ := mulmod_value (a := a) (b := b) hm
  obtain ⟨y, hy, yvalue⟩ := mulmod_value (a := b) (b := c) hm
  rw [hx, hy, Option.bind_some, Option.bind_some]
  refine mulmod_congr ?_
  rw [xvalue, yvalue, Nat.mod_mul_mod, Nat.mul_mod_mod, Nat.mul_assoc]

/-- Settles O37: each law is an equation between remainders of natural products. -/
theorem mulmodLaws : Obligations.MulmodLaws := fun a b c m hm =>
  ⟨mulmod_comm a b m, mulmod_zero a hm, mulmod_one a hm, (mulmod_mod_mod a b m).symm, mulmod_assoc a b c hm⟩

/-! ## Reduction by repeated subtraction (rules R173, R174) -/

theorem reduceBySubtraction_of_lt {p m : Nat} (k : Nat) (hlt : p < m) : reduceBySubtraction k p m = some p := by
  cases k <;> exact if_neg (Nat.not_le.mpr hlt)

theorem reduceBySubtraction_of_le {p m : Nat} (k : Nat) (hle : m ≤ p) :
    reduceBySubtraction (k + 1) p m = reduceBySubtraction k (p - m) m := if_pos hle

/-- For a modulus above 0, `p / m` subtractions are what the loop needs, and it ends with the least remainder. -/
theorem reduceBySubtraction_eq {m : Nat} (hm : 0 < m) (k p : Nat) :
    reduceBySubtraction k p m = if k < p / m then none else some (p % m) := by
  rcases Nat.lt_or_ge p m with hlt | hle
  · rw [reduceBySubtraction_of_lt k hlt, Nat.div_eq_of_lt hlt, if_neg (Nat.not_lt_zero k), Nat.mod_eq_of_lt hlt]
  · have quotient : p / m = (p - m) / m + 1 := Nat.div_eq_sub_div hm hle
    cases k with
    | zero =>
      rw [quotient, if_pos (Nat.succ_pos _)]
      exact if_pos hle
    | succ k =>
      rw [reduceBySubtraction_of_le k hle, reduceBySubtraction_eq hm k (p - m), quotient, Nat.mod_eq_sub_mod hle]
      simp only [Nat.add_lt_add_iff_right]

theorem reduceBySubtraction_zero_modulus (k p : Nat) : reduceBySubtraction k p 0 = none := by
  induction k generalizing p with
  | zero => rfl
  | succ k ih => exact ih p

/-- Settles O36: with the modulus 0 the loop subtracts nothing for ever, else it ends at the quotient. -/
theorem repeatedSubtractionReduces : Obligations.RepeatedSubtractionReduces := by
  refine ⟨fun p m hm => ⟨?_, fun k hk => ?_⟩, reduceBySubtraction_zero_modulus⟩
  · rw [reduceBySubtraction_eq hm, if_neg (Nat.lt_irrefl _)]
  · rw [reduceBySubtraction_eq hm, if_pos hk]

/-! ## The schoolbook product (rule R172) -/

/-- The 128-bit intermediate of one word of a row: the product, the word of the buffer, and the carry. -/
def limbProduct (a b p carry : Limb) : BitVec 128 :=
  a.setWidth 128 * b.setWidth 128 + p.setWidth 128 + carry.setWidth 128

theorem productRow_cons (a carry b p : Limb) (bs ps : List Limb) :
    productRow a carry (b :: bs) (p :: ps) = (limbProduct a b p carry).setWidth 64 ::
      productRow a ((limbProduct a b p carry).extractLsb' 64 64) bs ps := rfl

/-- 128 bits hold the intermediate, which the two words made of it divide up. -/
theorem limbProduct_spec (a b p carry : Limb) :
    ((limbProduct a b p carry).setWidth 64).toNat + 2 ^ 64 * ((limbProduct a b p carry).extractLsb' 64 64).toNat =
      a.toNat * b.toNat + p.toNat + carry.toNat := by
  have ha : a.toNat ≤ 2 ^ 64 - 1 := Nat.le_pred_of_lt a.isLt
  have hb : b.toNat ≤ 2 ^ 64 - 1 := Nat.le_pred_of_lt b.isLt
  have hp : p.toNat < 2 ^ 64 := p.isLt
  have hc : carry.toNat < 2 ^ 64 := carry.isLt
  have hab : a.toNat * b.toNat ≤ (2 ^ 64 - 1) * (2 ^ 64 - 1) := Nat.mul_le_mul ha hb
  have value : (limbProduct a b p carry).toNat = a.toNat * b.toNat + p.toNat + carry.toNat := by
    simp only [limbProduct, BitVec.toNat_add, BitVec.toNat_mul, BitVec.toNat_setWidth]
    rw [Nat.mod_eq_of_lt (by omega : a.toNat < 2 ^ 128), Nat.mod_eq_of_lt (by omega : b.toNat < 2 ^ 128)]
    omega
  rw [BitVec.toNat_setWidth, BitVec.extractLsb'_toNat, value, Nat.shiftRight_eq_div_pow]
  omega

/-- A row adds `a` times the second factor to the words `low` that it meets, and its last carry takes the place of the word
`above` them; the rest of the buffer stays. -/
theorem productRow_spec (a carry above : Limb) {bs low : List Limb} (rest : List Limb) (hlen : low.length = bs.length) :
    ∃ row, productRow a carry bs (low ++ above :: rest) = row ++ rest ∧ row.length = bs.length + 1 ∧
      limbsValue row = limbsValue low + a.toNat * limbsValue bs + carry.toNat := by
  induction bs generalizing low carry with
  | nil =>
    rw [List.length_eq_zero_iff.mp hlen]
    exact ⟨[carry], rfl, rfl, by simp [limbsValue]⟩
  | cons b bs ih =>
    cases low with
    | nil => cases hlen
    | cons p low =>
      obtain ⟨row, hrow, hlength, hvalue⟩ := ih ((limbProduct a b p carry).extractLsb' 64 64) (Nat.succ.inj hlen)
      refine ⟨(limbProduct a b p carry).setWidth 64 :: row, ?_, congrArg (· + 1) hlength, ?_⟩
      · rw [List.cons_append, productRow_cons, hrow, List.cons_append]
      · have word := limbProduct_spec a b p carry
        simp only [limbsValue, hvalue]
        linarith only [word]

theorem productRows_cons {a w : Limb} {as bs buffer rest : List Limb} (h : productRow a 0 bs buffer = w :: rest) :
    productRows (a :: as) bs buffer = w :: productRows as bs rest := by
  simp only [productRows, h]

/-- The rows add the product of the factors to the words `low` that the first row meets, and overwrite the words `high`
above those. -/
theorem productRows_spec {as bs low high : List Limb} (hlow : low.length = bs.length) (hhigh : high.length = as.length) :
    (productRows as bs (low ++ high)).length = low.length + as.length ∧
      limbsValue (productRows as bs (low ++ high)) = limbsValue low + limbsValue as * limbsValue bs := by
  induction as generalizing low high with
  | nil =>
    rw [List.length_eq_zero_iff.mp hhigh, List.append_nil]
    simp [productRows, limbsValue]
  | cons a as ih =>
    cases high with
    | nil => cases hhigh
    | cons above high =>
      obtain ⟨row, hrow, hlength, hvalue⟩ := productRow_spec a 0 above high hlow
      cases row with
      | nil => cases hlength
      | cons w row =>
        obtain ⟨length, value⟩ := ih (Nat.succ.inj hlength) (Nat.succ.inj hhigh)
        have sum : w.toNat + 2 ^ 64 * limbsValue row = limbsValue low + a.toNat * limbsValue bs := hvalue
        rw [productRows_cons (hrow.trans List.cons_append), List.length_cons, limbsValue, value]
        constructor
        · simp only [List.length_cons] at hlength ⊢
          omega
        · rw [limbsValue]
          linarith only [sum]

/-- Settles O35: the rows of `a`, on a buffer that starts at 0. -/
theorem schoolbookProductIsExact : Obligations.SchoolbookProductIsExact := by
  intro a b
  have zeros : limbsValue (List.replicate 8 0) = 0 := by simp [List.replicate, limbsValue]
  obtain ⟨length, value⟩ := productRows_spec (as := limbs a) (bs := limbs b) (low := List.replicate 8 0)
    (high := List.replicate 8 0) (by simp) (by simp)
  rw [zeros, limbsValue_limbs, limbsValue_limbs, Nat.zero_add] at value
  rw [limbs_length, List.length_replicate] at length
  exact ⟨length, value⟩

end Sys2Proof.Machine
end

section
/-! SUPPORT. The runs of MULMOD, and of MULMOD and POWMOD with modulus 0, which never end (rules R170, R174, R188). -/

namespace Sys2Proof.Machine

variable {i : Instr} {s : State} {f : Flight}

/-- A run that ends with `completeWith` and a value writes it to the register and no flag. -/
theorem completeWith_accept {v : Option Word} {r : Word} (hv : v = some r) (i : Instr) (rd : RegIdx) (ok : Bool)
    (hq : s.quiescent) : (s.accept (acceptedFlight s i)).completeWith rd v ok =
      { s.afterCommand i with regs := s.regs.set rd.val (Reg.result r ok) rd.isLt } := by
  rw [hv, ← complete_setReg_accept i rd r ok hq]
  rfl

/-- Settles O32: the turn completes with the remainder of the product of the latched values. -/
theorem mulmodReducesTheProduct : Obligations.MulmodReducesTheProduct := by
  intro rd ra rb rm s hq hm
  obtain ⟨a, accept, turn⟩ := exec_accept_turn (.mulmod rd ra rb rm) hq rfl
  obtain ⟨r, hr, value⟩ := mulmod_value (a := s.view ra) (b := s.view rb) hm
  exact ⟨a, r, accept, turn.trans (congrArg _ (completeWith_accept hr _ rd _ hq)), value⟩

/-! ## Modulus 0 (rules R174, R188) -/

/-- The unconditional squaring of the first iteration has no result, whatever the exponent (rule R188). -/
theorem powmodFrom_zero_modulus (e : Word) (left k : Nat) (result b : Word) :
    powmodFrom e 0#512 (left + 1) k result b = none := by
  simp [powmodFrom]

theorem powmod_zero_modulus (a e : Word) : powmod a e 0#512 = none := powmodFrom_zero_modulus e 511 0 1 a

theorem flightTurn_zero_modulus {rd ra rb rm : RegIdx} (hi : i = .mulmod rd ra rb rm ∨ i = .powmod rd ra rb rm)
    (hm : f.opM = 0#512) : flightTurn s f i = s := by
  rcases hi with rfl | rfl
  · rw [flightTurn, hm, mulmod_zero_modulus]
    rfl
  · rw [flightTurn, hm, powmod_zero_modulus]
    rfl

/-- A command in flight whose step changes nothing runs on for ever. -/
theorem finishRun_stuck (hf : s.flight = some f) (hi : f.instr = i) (hexec : exec i s = .next s) (n : Nat) :
    finishRun n s = .next s := by
  induction n with
  | zero => rfl
  | succ n ih => rw [finishRun_inFlight hf hi hexec, ih]

/-- Settles O34: the turn of the command, once accepted, changes nothing. -/
theorem zeroModulusNeverCompletes : Obligations.ZeroModulusNeverCompletes := by
  intro i rd ra rb rm s hi hq hm
  obtain ⟨a, f, accept, hf, hinstr, -, busy, -, -, latched, -, -, status, regs, -⟩ := acceptLatchesTheSources i s hq
  have modulus : f.opM = 0#512 := (latched rm (by rcases hi with rfl | rfl <;> rfl)).trans hm
  have stuck : exec i a = .next a := (exec_inFlight hf hinstr).trans (congrArg _ (flightTurn_zero_modulus hi modulus))
  refine ⟨a, accept, busy, by rw [status], regs, fun k => ?_⟩
  rw [← finishRun_stuck hf hinstr stuck k]
  simp only [commandRun, accept]

end Sys2Proof.Machine
end

section
/-! SUPPORT. POWMOD: the loop of square-and-multiply and the slow reference both have the value `mulPow` (rules R185 to
R189). -/

namespace Sys2Proof.Machine

variable {e m x b : Word}

/-! ## Multiplying by a power -/

/-- The value that `x` has once it is multiplied `n` times by `b`, each time modulo `m`: with no multiplication there is no
reduction either (rules R185, R187). -/
def mulPow (m x b n : Nat) : Nat := if n = 0 then x else x * b ^ n % m

@[simp] theorem mulPow_zero (m x b : Nat) : mulPow m x b 0 = x := if_pos rfl

theorem mulPow_of_ne_zero (m x b : Nat) {n : Nat} (hn : n ≠ 0) : mulPow m x b n = x * b ^ n % m := if_neg hn

theorem mulPow_one (m x b : Nat) : mulPow m x b 1 = x * b % m := by
  rw [mulPow_of_ne_zero m x b Nat.one_ne_zero, Nat.pow_one]

theorem mulPow_mulPow (m x b i j : Nat) : mulPow m (mulPow m x b i) b j = mulPow m x b (i + j) := by
  rcases Nat.eq_zero_or_pos i with rfl | hi
  · rw [mulPow_zero, Nat.zero_add]
  rcases Nat.eq_zero_or_pos j with rfl | hj
  · rw [mulPow_zero, Nat.add_zero]
  rw [mulPow_of_ne_zero _ _ _ hi.ne', mulPow_of_ne_zero _ _ _ hj.ne', mulPow_of_ne_zero _ _ _ (by omega),
    Nat.mod_mul_mod, Nat.mul_assoc, Nat.pow_add]

/-- Squaring the factor halves the number of multiplications. -/
theorem mulPow_square (m x b n : Nat) : mulPow m x (b * b % m) n = mulPow m x b (2 * n) := by
  rcases Nat.eq_zero_or_pos n with rfl | hn
  · rw [Nat.mul_zero, mulPow_zero, mulPow_zero]
  rw [mulPow_of_ne_zero _ _ _ hn.ne', mulPow_of_ne_zero _ _ _ (by omega), Nat.pow_mul, Nat.pow_two, Nat.mul_mod,
    ← Nat.pow_mod, ← Nat.mul_mod]

/-! ## The loop of rule R186 -/

theorem powmodFrom_succ {x' b' : Word} {k : Nat} (hx : (if e.getLsbD k then mulmod x b m else some x) = some x')
    (hb : mulmod b b m = some b') (left : Nat) :
    powmodFrom e m (left + 1) k x b = powmodFrom e m left (k + 1) x' b' := by
  simp only [powmodFrom, hx, hb]

/-- The multiplication that bit `k` of the exponent decides. -/
theorem multiplyBit_value (hm : m ≠ 0) (e x b : Word) (k : Nat) :
    ∃ x', (if e.getLsbD k then mulmod x b m else some x) = some x' ∧
      x'.toNat = mulPow m.toNat x.toNat b.toNat (e.toNat / 2 ^ k % 2) := by
  have bit : e.getLsbD k = decide (e.toNat / 2 ^ k % 2 = 1) := Nat.testBit_eq_decide_div_mod_eq
  rcases Nat.mod_two_eq_zero_or_one (e.toNat / 2 ^ k) with h | h
  · rw [bit, h]
    exact ⟨x, rfl, (mulPow_zero ..).symm⟩
  · rw [bit, h, mulPow_one]
    exact mulmod_value hm

/-- The bits of `n` below `left + 1` are its low bit and the bits of `n / 2` below `left`. -/
theorem mod_two_add_two_mul (n left : Nat) : n % 2 + 2 * (n / 2 % 2 ^ left) = n % 2 ^ (left + 1) := by
  rw [Nat.pow_succ', Nat.mod_mul]

/-- The loop invariant: the iterations left multiply the result by the power of `b` whose exponent is the bits not yet
looked at. -/
theorem powmodFrom_value (hm : m ≠ 0) (e : Word) (left k : Nat) (x b : Word) :
    ∃ r, powmodFrom e m left k x b = some r ∧
      r.toNat = mulPow m.toNat x.toNat b.toNat (e.toNat / 2 ^ k % 2 ^ left) := by
  induction left generalizing k x b with
  | zero => exact ⟨x, rfl, by rw [Nat.pow_zero, Nat.mod_one, mulPow_zero]⟩
  | succ left ih =>
    obtain ⟨x', hx, xvalue⟩ := multiplyBit_value hm e x b k
    obtain ⟨b', hb, bvalue⟩ := mulmod_value (a := b) (b := b) hm
    obtain ⟨r, hr, value⟩ := ih (k + 1) x' b'
    refine ⟨r, (powmodFrom_succ hx hb left).trans hr, ?_⟩
    rw [value, xvalue, bvalue, mulPow_square, mulPow_mulPow, Nat.pow_succ, ← Nat.div_div_eq_div_mul,
      mod_two_add_two_mul]

theorem one_toNat : (1 : Word).toNat = 1 := BitVec.toNat_one (by decide)

/-- The 512 iterations look at every bit of the exponent (rules R186, R187). -/
theorem powmod_value (hm : m ≠ 0) (a e : Word) :
    ∃ r, powmod a e m = some r ∧ r.toNat = mulPow m.toNat 1 a.toNat e.toNat := by
  obtain ⟨r, hr, value⟩ := powmodFrom_value hm e Config.width 0 1 a
  have width : Config.width = 512 := rfl
  refine ⟨r, hr, ?_⟩
  rw [value, Nat.pow_zero, Nat.div_one, width, BitVec.toNat_mod_cancel, one_toNat]

/-- Settles O33: the turn completes with the power of the latched values. -/
theorem powmodComputesThePower : Obligations.PowmodComputesThePower := by
  intro rd ra rb rm s hq hm
  obtain ⟨a, accept, turn⟩ := exec_accept_turn (.powmod rd ra rb rm) hq rfl
  obtain ⟨r, hr, value⟩ := powmod_value hm (s.view ra) (s.view rb)
  refine ⟨a, r, accept, turn.trans (congrArg _ (completeWith_accept hr _ rd _ hq)), fun hb => ?_, fun hb => ?_⟩
  · rw [hb, BitVec.ofNat_eq_ofNat, BitVec.toNat_zero, mulPow_zero, ← one_toNat] at value
    exact BitVec.eq_of_toNat_eq value
  · have exponent : (s.view rb).toNat ≠ 0 :=
      fun h => hb (BitVec.eq_of_toNat_eq (h.trans BitVec.toNat_zero.symm))
    rw [value, mulPow_of_ne_zero _ _ _ exponent, Nat.one_mul]

/-! ## The slow reference (rule R189) -/

theorem slowPower_value (hm : m ≠ 0) (a : Word) (n : Nat) :
    ∃ r, slowPower a m n = some r ∧ r.toNat = mulPow m.toNat 1 a.toNat n := by
  induction n with
  | zero => exact ⟨1, rfl, one_toNat.trans (mulPow_zero ..).symm⟩
  | succ n ih =>
    obtain ⟨x, hx, xvalue⟩ := ih
    obtain ⟨r, hr, value⟩ := mulmod_value (a := x) (b := a) hm
    exact ⟨r, by simp only [slowPower, hx, hr], by rw [value, xvalue, ← mulPow_one, mulPow_mulPow]⟩

/-- Settles O38: the loop and the slow reference have one value. -/
theorem powmodEqualsTheSlowReference : Obligations.PowmodEqualsTheSlowReference := by
  intro a e m hm
  obtain ⟨r, hr, value⟩ := powmod_value hm a e
  obtain ⟨r', hr', value'⟩ := slowPower_value hm a e.toNat
  rw [hr, hr', BitVec.eq_of_toNat_eq (value.trans value'.symm)]

end Sys2Proof.Machine
end

section
/-! SUPPORT. The Miller-Rabin test on numbers: when a round of rule R219 passes, and that the witness `n - 1` and every witness
of a prime pass (rules R209, R214, R219). -/

namespace Sys2Proof.Machine

variable {n d s a x : Nat}

/-! ## When a round passes (rules R208, R209) -/

theorem square_mod_pow (n x q : Nat) : (x * x % n) ^ 2 ^ q % n = x ^ 2 ^ (q + 1) % n := by
  rw [← Nat.pow_mod, Nat.pow_succ', Nat.pow_mul, Nat.pow_two]

/-- The squarings of the loop are the powers of `x` to the powers of two. -/
theorem squaresReach_iff {left : Nat} :
    squaresReach n left x = true ↔ ∃ q, 1 ≤ q ∧ q ≤ left ∧ x ^ 2 ^ q % n = n - 1 := by
  induction left generalizing x with
  | zero =>
    refine iff_of_false Bool.false_ne_true ?_
    rintro ⟨q, one_le, le_zero, -⟩
    omega
  | succ left ih =>
    have first : x * x % n = x ^ 2 ^ 1 % n := by rw [Nat.pow_one, Nat.pow_two]
    rw [squaresReach, Bool.or_eq_true, decide_eq_true_iff, ih, first]
    constructor
    · rintro (h | ⟨q, -, hle, h⟩)
      · exact ⟨1, le_rfl, by omega, h⟩
      · exact ⟨q + 1, by omega, by omega, by rwa [← square_mod_pow, first]⟩
    · rintro ⟨_ | _ | q, one_le, hle, h⟩
      · omega
      · exact .inl h
      · exact .inr ⟨q + 1, by omega, by omega, by rwa [← first, square_mod_pow]⟩

theorem witnessPasses_iff : witnessPasses n d s a = true ↔
    a ^ d % n = 1 ∨ a ^ d % n = n - 1 ∨ ∃ q, 1 ≤ q ∧ q ≤ s - 1 ∧ (a ^ d % n) ^ 2 ^ q % n = n - 1 := by
  simp only [witnessPasses, Bool.or_eq_true, decide_eq_true_iff, squaresReach_iff, or_assoc]

/-! ## In the residues modulo `n` -/

theorem cast_pred_eq_neg_one (hn : 0 < n) : ((n - 1 : Nat) : ZMod n) = -1 := by
  rw [Nat.cast_pred hn, ZMod.natCast_self, zero_sub]

theorem mod_eq_pred_iff (hn : 0 < n) : x % n = n - 1 ↔ (x : ZMod n) = -1 := by
  rw [← cast_pred_eq_neg_one hn, ZMod.natCast_eq_natCast_iff', Nat.mod_eq_of_lt (Nat.sub_one_lt hn.ne')]

theorem mod_eq_one_iff (hn : 1 < n) : x % n = 1 ↔ (x : ZMod n) = 1 := by
  rw [← Nat.cast_one (R := ZMod n), ZMod.natCast_eq_natCast_iff', Nat.mod_eq_of_lt hn]

/-- The witness `n - 1` passes: its power to an odd exponent is -1 (rule R214 (a)). -/
theorem witnessPasses_pred (hn : 0 < n) (odd : d % 2 = 1) (s : Nat) : witnessPasses n d s (n - 1) = true := by
  have power : (((n - 1) ^ d : Nat) : ZMod n) = -1 := by
    rw [Nat.cast_pow, cast_pred_eq_neg_one hn, (Nat.odd_iff.mpr odd).neg_one_pow]
  exact witnessPasses_iff.mpr (.inr (.inl ((mod_eq_pred_iff hn).mpr power)))

/-- Where 1 has no square roots but 1 and -1, squaring reaches 1 from 1 or through -1 only. -/
theorem eq_one_or_square_eq_neg_one {R : Type} [CommRing R] [NoZeroDivisors R] {y : R} (h : y ^ 2 ^ s = 1) :
    y = 1 ∨ ∃ q, q < s ∧ y ^ 2 ^ q = -1 := by
  induction s with
  | zero => exact .inl (by rwa [pow_zero, pow_one] at h)
  | succ s ih =>
    rw [pow_succ, pow_mul, sq, mul_self_eq_one_iff] at h
    rcases h with h | h
    · exact (ih h).imp_right fun ⟨q, hlt, hq⟩ => ⟨q, by omega, hq⟩
    · exact .inr ⟨s, s.lt_succ_self, h⟩

/-- Every witness of a prime passes, by Fermat's little theorem (rule R214 (b)). -/
theorem witnessPasses_of_prime (hp : n.Prime) (product : d * 2 ^ s = n - 1) (hpos : 0 < a) (hlt : a < n) :
    witnessPasses n d s a = true := by
  have fact : Fact n.Prime := ⟨hp⟩
  have unit : (a : ZMod n) ≠ 0 := by
    rw [Ne, ZMod.natCast_eq_zero_iff]
    exact Nat.not_dvd_of_pos_of_lt hpos hlt
  have fermat : ((a : ZMod n) ^ d) ^ 2 ^ s = 1 := by
    rw [← pow_mul, product]
    exact ZMod.pow_card_sub_one_eq_one unit
  rw [witnessPasses_iff, mod_eq_one_iff hp.one_lt, mod_eq_pred_iff hp.pos, Nat.cast_pow]
  rcases eq_one_or_square_eq_neg_one fermat with h | ⟨_ | q, hq, h⟩
  · exact .inl h
  · exact .inr (.inl (by rwa [pow_zero, pow_one] at h))
  · refine .inr (.inr ⟨q + 1, by omega, by omega, (mod_eq_pred_iff hp.pos).mpr ?_⟩)
    rw [Nat.cast_pow, ZMod.natCast_mod, Nat.cast_pow, h]

end Sys2Proof.Machine
end

section
/-! SUPPORT. A round of MRTEST in flight is the round of rule R219 on the values of its temporaries (rules R199 to R209). -/

namespace Sys2Proof.Machine

variable {f : Flight} {n nm1 d a x r m : Word}

theorem toNat_ofNat_word {v : Nat} (h : v < 2 ^ 512) : (BitVec.ofNat 512 v).toNat = v := by
  rw [BitVec.toNat_ofNat]
  exact Nat.mod_eq_of_lt h

theorem two_toNat : (2 : Word).toNat = 2 :=
  toNat_ofNat_word (Nat.pow_lt_pow_right (a := 2) (m := 1) (n := 512) (by decide) (by decide))

/-! ## The decomposed candidate (rules R199, R200) -/

theorem Flight.Decomposed.d_pos (h : f.Decomposed) : 0 < f.d.toNat := by
  have := h.oddPart
  omega

/-- `n - 1` is even and its part `d` odd, so a factor 2 was taken out. -/
theorem Flight.Decomposed.sh_pos (h : f.Decomposed) : 0 < f.sh := by
  obtain ⟨odd, atLeast3, -, oddPart, product⟩ := h
  refine Nat.pos_of_ne_zero fun e => ?_
  rw [e, Nat.pow_zero, Nat.mul_one] at product
  omega

theorem Flight.Decomposed.sh_lt (h : f.Decomposed) : f.sh < 512 := by
  have bound : 2 ^ f.sh ≤ f.opA.toNat - 1 := h.product ▸ Nat.le_mul_of_pos_left _ h.d_pos
  exact (Nat.pow_lt_pow_iff_right (a := 2) (by decide)).mp
    ((bound.trans (Nat.sub_le _ _)).trans_lt f.opA.isLt)

theorem Flight.Decomposed.d_le (h : f.Decomposed) : f.d.toNat ≤ (f.opA.toNat - 1) / 2 := by
  rw [Nat.le_div_iff_mul_le Nat.two_pos, ← h.product]
  exact Nat.mul_le_mul_left _ (Nat.le_pow h.sh_pos)

theorem Flight.Decomposed.opA_ne_zero (h : f.Decomposed) : f.opA ≠ 0 := fun e => by
  have atLeast3 := h.atLeast3
  rw [e, BitVec.ofNat_eq_ofNat, BitVec.toNat_zero] at atLeast3
  omega

/-! ## The witness (rules R205, R206) -/

theorem remainder_value (hm : m.toNat ≠ 0) (r : Word) :
    ∃ x, remainder r m = some x ∧ x.toNat = r.toNat % m.toNat := by
  have nonzero : m ≠ 0 := fun e => hm (e ▸ BitVec.toNat_zero)
  exact ⟨_, if_neg nonzero, toNat_ofNat_word ((Nat.mod_lt _ (Nat.pos_of_ne_zero hm)).trans m.isLt)⟩

/-- The modulus of the witness reduction is `n - 2`, without wrapping. -/
theorem Flight.Decomposed.nm1_sub_one (h : f.Decomposed) : (f.nm1 - 1).toNat = f.opA.toNat - 2 := by
  have pred := h.pred
  have atLeast3 := h.atLeast3
  rw [BitVec.toNat_sub_of_le (by rw [BitVec.le_def, one_toNat]; omega), one_toNat]
  omega

/-- Settles O43: the remainder is below `n - 2`, so that adding 2 stays below `n`. -/
theorem witnessIsInRange : Obligations.WitnessIsInRange := by
  intro f r h
  have atLeast3 := h.atLeast3
  obtain ⟨x, hx, value⟩ := remainder_value (m := f.nm1 - 1) (by rw [h.nm1_sub_one]; omega) r
  rw [h.nm1_sub_one] at value
  have small : x.toNat < f.opA.toNat - 2 := value ▸ Nat.mod_lt _ (by omega)
  have fits : x.toNat + (2 : Word).toNat < 2 ^ 512 := lt_of_le_of_lt (by rw [two_toNat]; omega) f.opA.isLt
  have sum : (x + 2).toNat = x.toNat + 2 := (BitVec.toNat_add_of_lt fits).trans (congrArg _ two_toNat)
  exact ⟨x + 2, by rw [witness, hx, Option.map_some], by rw [sum, value], by omega, by omega⟩

/-! ## The round (rules R207 to R209) -/

theorem squaringLoop_eq (hn : n ≠ 0) (pred : nm1.toNat = n.toNat - 1) (left : Nat) (x : Word) :
    squaringLoop n nm1 left x = some (squaresReach n.toNat left x.toNat) := by
  induction left generalizing x with
  | zero => rfl
  | succ left ih =>
    obtain ⟨y, hy, value⟩ := mulmod_value (a := x) (b := x) hn
    simp only [squaringLoop, hy, squaresReach, ← value, ← pred, BitVec.toNat_inj, ih]
    by_cases hyp : y = nm1 <;> simp [hyp]

theorem roundWith_eq (hn : n ≠ 0) (pred : nm1.toNat = n.toNat - 1) (hd : d.toNat ≠ 0) (s : Nat) (a : Word) :
    roundWith n nm1 d s a = some (witnessPasses n.toNat d.toNat s a.toNat) := by
  obtain ⟨x, hx, value⟩ := powmod_value hn a d
  rw [mulPow_of_ne_zero _ _ _ hd, Nat.one_mul] at value
  have one : x = 1 ↔ x.toNat = 1 := by rw [← BitVec.toNat_inj, one_toNat]
  have last : x = nm1 ↔ x.toNat = n.toNat - 1 := by rw [← BitVec.toNat_inj, pred]
  simp only [roundWith, hx, witnessPasses, ← value, squaringLoop_eq hn pred, one, last]
  by_cases hpass : x.toNat = 1 ∨ x.toNat = n.toNat - 1
  · rw [if_pos hpass]
    rcases hpass with h | h <;> simp [h]
  · rw [if_neg hpass]
    obtain ⟨h1, h2⟩ := not_or.mp hpass
    simp [h1, h2]

/-- The witness of a round as a number (rule R206). -/
def Flight.witnessValue (f : Flight) : Nat := limbsValue f.draws % (f.opA.toNat - 2) + 2

theorem roundOf_of_witness (ha : witness (BitVec.ofNat 512 (limbsValue f.draws)) f.nm1 = some a) :
    roundOf f = roundWith f.opA f.nm1 f.d f.sh a := by
  unfold roundOf
  simp only [ha]

/-- The round of a decomposed candidate is that of rule R219. -/
theorem roundOf_eq (h : f.Decomposed) (hdraws : limbsValue f.draws < 2 ^ 512) :
    roundOf f = some (witnessPasses f.opA.toNat f.d.toNat f.sh f.witnessValue) := by
  obtain ⟨a, ha, value, -⟩ := witnessIsInRange f (BitVec.ofNat 512 (limbsValue f.draws)) h
  rw [toNat_ofNat_word hdraws] at value
  rw [roundOf_of_witness ha, roundWith_eq h.opA_ne_zero h.pred h.d_pos.ne', value, Flight.witnessValue]

/-- Eight words are a 512-bit value (rule R204). -/
theorem roundOf_eq_of_drawn (h : f.Decomposed) (hdrawn : f.draws.length = 8) :
    roundOf f = some (witnessPasses f.opA.toNat f.d.toNat f.sh f.witnessValue) := by
  have bound := limbsValue_lt f.draws
  rw [hdrawn] at bound
  exact roundOf_eq h bound

/-- Settles O44: the witness of such a draw is `n - 1`. -/
theorem minusOnePassesEveryRound : Obligations.MinusOnePassesEveryRound := by
  intro f h hdraws hlast
  have atLeast3 := h.atLeast3
  have value : f.witnessValue = f.opA.toNat - 1 := by
    rw [Flight.witnessValue, hlast]
    omega
  rw [roundOf_eq h hdraws, value, witnessPasses_pred (by omega) h.oddPart]

end Sys2Proof.Machine
end

section
/-! SUPPORT. The turns of MRTEST, one for each transition of the table of rule R196, and what none of them touches (rules R196
to R216). -/

namespace Sys2Proof.Machine

variable {s : State} {f : Flight} {ra : RegIdx}

/-! ## The turn that PHASE selects -/

theorem exec_mrtest_start (hf : s.flight = some f) (hi : f.instr = .mrtest ra) (hp : s.status.phase = .start) :
    exec (.mrtest ra) s = .next (s.mrStart f) := by
  rw [exec_inFlight hf hi, flightTurn, State.mrTurn, hp]

theorem exec_mrtest_decomposed (hf : s.flight = some f) (hi : f.instr = .mrtest ra)
    (hp : s.status.phase = .decomposed) : exec (.mrtest ra) s = .next (s.mrRoundControl f f.passed) := by
  rw [exec_inFlight hf hi, flightTurn, State.mrTurn, hp]

/-- A round with its eight words drawn ends by the test of rule R219. -/
theorem exec_mrtest_drawn (hf : s.flight = some f) (hi : f.instr = .mrtest ra)
    (hp : s.status.phase = .roundInProgress) (hdec : f.Decomposed) (hdrawn : f.draws.length = 8) :
    exec (.mrtest ra) s = .next (if witnessPasses f.opA.toNat f.d.toNat f.sh f.witnessValue
      then s.mrRoundControl f (f.passed + 1) else s.completeComposite) := by
  have full : ¬ f.draws.length < Config.numWords := by simp [hdrawn, Config.numWords]
  rw [exec_inFlight hf hi, flightTurn, State.mrTurn, hp]
  simp only [State.mrRound, if_neg full, roundOf_eq_of_drawn hdec hdrawn]
  cases witnessPasses f.opA.toNat f.d.toNat f.sh f.witnessValue <;> rfl

/-! ## Start (rules R198 to R200) -/

theorem Flight.withCandidate_kept (f : Flight) (nm1 d : Word) (sh : Nat) :
    (f.withCandidate nm1 d sh).opA = f.opA ∧ (f.withCandidate nm1 d sh).instr = f.instr ∧
      (f.withCandidate nm1 d sh).rs = f.rs ∧ (f.withCandidate nm1 d sh).passed = 0 := ⟨rfl, rfl, rfl, rfl⟩

/-- Beside the temporaries of rule R199, Start leaves the flight as it was, with no round passed. -/
theorem Flight.decomposedCandidate_kept (f : Flight) :
    f.decomposedCandidate.opA = f.opA ∧ f.decomposedCandidate.instr = f.instr ∧
      f.decomposedCandidate.rs = f.rs ∧ f.decomposedCandidate.passed = 0 := f.withCandidate_kept _ _ _

@[simp] theorem Flight.decomposedCandidate_opA (f : Flight) : f.decomposedCandidate.opA = f.opA :=
  f.decomposedCandidate_kept.1

/-- What Start rejects, as a number. -/
theorem rejected_iff (n : Word) : isEven n = true ∨ n = 1 ↔ n.toNat % 2 = 0 ∨ n.toNat = 1 := by
  rw [isEven_eq, decide_eq_true_iff, ← BitVec.toNat_inj, one_toNat]

theorem State.mrStart_of_rejected (h : f.opA.toNat % 2 = 0 ∨ f.opA.toNat = 1) : s.mrStart f = s.completeComposite :=
  if_pos ((rejected_iff _).mpr h)

theorem State.mrStart_of_not_rejected (h : ¬ (f.opA.toNat % 2 = 0 ∨ f.opA.toNat = 1)) :
    s.mrStart f = { s.setPhase .decomposed with flight := some f.decomposedCandidate } :=
  if_neg fun e => h ((rejected_iff _).mp e)

theorem decomposedCandidate_decomposed_of_not_rejected (h : ¬ (f.opA.toNat % 2 = 0 ∨ f.opA.toNat = 1)) :
    f.decomposedCandidate.Decomposed := Flight.decomposedCandidate_decomposed fun e => h ((rejected_iff _).mp e)

/-- Settles O39: the turn at Start is the completion with Composite. -/
theorem mrtestRejectsEvenAndOne : Obligations.MrtestRejectsEvenAndOne := by
  intro ra s f hf hi hp hrejected
  rw [exec_mrtest_start hf hi hp, State.mrStart_of_rejected hrejected]
  rfl

/-- Settles O40: the bounds follow from `n - 1` being even and its part `d` odd. -/
theorem mrtestDecomposesOddCandidates : Obligations.MrtestDecomposesOddCandidates := by
  intro ra s f hf hi hp odd atLeast3
  have accepted : ¬ (f.opA.toNat % 2 = 0 ∨ f.opA.toNat = 1) := by omega
  have hdec := decomposedCandidate_decomposed_of_not_rejected accepted
  have turn := (exec_mrtest_start hf hi hp).trans (congrArg _ (State.mrStart_of_not_rejected accepted))
  have pred := hdec.pred
  have product := hdec.product
  have d_le := hdec.d_le
  rw [Flight.decomposedCandidate_opA] at pred product d_le
  exact ⟨f.decomposedCandidate.nm1, f.decomposedCandidate.d, f.decomposedCandidate.sh, turn, pred, product,
    hdec.oddPart, hdec.sh_pos, Nat.le_of_lt_succ hdec.sh_lt, hdec.d_pos, d_le⟩

/-! ## Round control (rules R201 to R203) -/

theorem State.mrRoundControl_of_all (k : Nat) (h : k = f.rs.toNat) : s.mrRoundControl f k = s.completePrime := if_pos h

theorem State.mrRoundControl_of_more (k : Nat) (h : k ≠ f.rs.toNat) : s.mrRoundControl f k =
    { s.setPhase .roundInProgress with flight := some { f with draws := [], passed := k } } := if_neg h

/-- Settles O41: round control with no round passed. -/
theorem mrtestBeginsRounds : Obligations.MrtestBeginsRounds := by
  intro ra s f hf hi hp hpassed
  have none_asked : f.passed = f.rs.toNat ↔ f.rs = 0 := by
    rw [hpassed, ← BitVec.toNat_inj, eq_comm]
    rfl
  rw [exec_mrtest_decomposed hf hi hp]
  refine ⟨fun h => ?_, fun h => ?_⟩
  · rw [State.mrRoundControl_of_all _ (none_asked.mpr h)]
    rfl
  · rw [State.mrRoundControl_of_more _ (mt none_asked.mp h)]
    rfl

/-! ## The decision of a round (rules R206 to R212) -/

/-- Settles O42: the condition of the statement is that of `witnessPasses`. -/
theorem mrtestDecidesARound : Obligations.MrtestDecidesARound := by
  rintro ra s f hf hi hp hdec hdrawn n a x rfl rfl rfl
  have passes := witnessPasses_iff (n := f.opA.toNat) (d := f.d.toNat) (s := f.sh) (a := f.witnessValue)
  rw [exec_mrtest_drawn hf hi hp hdec hdrawn]
  refine ⟨fun h => ?_, fun h => ?_⟩
  · rw [if_pos (passes.mpr h)]
    refine ⟨fun last => ?_, fun more => ?_⟩
    · rw [State.mrRoundControl_of_all _ last]
      rfl
    · rw [State.mrRoundControl_of_more _ more, State.setPhase, ← hp]
  · rw [if_neg (mt passes.mp h)]
    rfl

/-! ## What a turn keeps (rules R215, R216) -/

/-- Settles O47: MRTEST has no destination, and each flag of another command is written by that command only. -/
theorem mrtestKeepsRegistersAndFlags : Obligations.MrtestKeepsRegistersAndFlags := by
  intro ra s t hexec
  obtain ⟨regs, -, rounds, -⟩ := onlyTheDestinationIsWritten _ s t hexec
  obtain ⟨cmp, even, borrow, -⟩ := flagsPersist _ s t hexec
  exact ⟨Vector.ext fun k hk => regs ⟨k, hk⟩ nofun, rounds, cmp nofun, even nofun, borrow nofun⟩

/-- What a step of a test in flight does to PHASE and VERDICT (rules R196, R212). -/
def TestAdvances (s t : State) : Prop :=
  s.status.phase.code.toNat ≤ t.status.phase.code.toNat ∧
  (t.busy = true → t.status.phase.testing = true ∧ t.status.verdict = .none ∧
    t.status.phase.code.toNat ≤ s.status.phase.code.toNat + 1) ∧
  (t.busy = false → t.status.phase = .probablyPrime ∨ t.status.phase = .composite)

theorem Phase.code_le_of_testing {p : Phase} (h : p.testing = true) : p.code.toNat ≤ 3 := by
  cases p with
  | start | decomposed | roundInProgress => decide
  | idle | probablyPrime | composite => cases h

theorem Phase.verdict_of_testing {p : Phase} (h : p.testing = true) : p.verdict = .none := by
  cases p with
  | start | decomposed | roundInProgress => rfl
  | idle | probablyPrime | composite => cases h

/-- A step from PHASE `p` to PHASE `q` that leaves the test in flight. -/
theorem testAdvances_of_busy {t : State} {p q : Phase} (hp : s.status.phase = p) (hq : t.status.phase = q)
    (hbusy : t.busy = true) (htesting : q.testing = true) (hverdict : t.status.verdict = .none)
    (hcode : p.code.toNat ≤ q.code.toNat ∧ q.code.toNat ≤ p.code.toNat + 1) : TestAdvances s t := by
  subst hp hq
  exact ⟨hcode.1, fun _ => ⟨htesting, hverdict, hcode.2⟩, fun h => by rw [hbusy] at h; cases h⟩

/-- A step that completes the test. -/
theorem testAdvances_of_complete {u : State} (htesting : s.status.phase.testing = true)
    (hphase : u.status.phase = .probablyPrime ∨ u.status.phase = .composite) : TestAdvances s u.complete := by
  have before : s.status.phase.code.toNat ≤ 3 := Phase.code_le_of_testing htesting
  have after : 4 ≤ u.status.phase.code.toNat := by
    rcases hphase with h | h <;> rw [h] <;> decide
  exact ⟨before.trans (Nat.le_of_succ_le after), nofun, fun _ => hphase⟩

theorem ResultWritten.phase_of_mrtest {i : Instr} {u : State} (hu : ResultWritten i s u) (hmr : isMrtest i = true) :
    u.status.phase = .probablyPrime ∨ u.status.phase = .composite := by
  cases hu with
  | prime => exact .inl rfl
  | composite => exact .inr rfl
  | register v ok hd => rw [not_mrtest_of_destination hd] at hmr; cases hmr
  | comparison c hi | parity e hi | subtraction v ok b hi => rw [hi] at hmr; cases hmr

theorem CommandStep.testAdvances {i : Instr} {t : State} (h : CommandStep i s t) (hf : s.flight = some f)
    (hmr : isMrtest i = true) (htesting : s.status.phase.testing = true) (hverdict : s.status.verdict = .none) :
    TestAdvances s t := by
  have same : s.status.phase.code.toNat ≤ s.status.phase.code.toNat ∧
      s.status.phase.code.toNat ≤ s.status.phase.code.toNat + 1 := ⟨le_rfl, Nat.le_succ _⟩
  cases h with
  | unchanged => exact testAdvances_of_busy rfl rfl (busy_of_inFlight hf) htesting hverdict same
  | accept g hq | acceptMrtest ra hq =>
    have idle : s.flight = none := hq
    rw [idle] at hf
    cases hf
  | pull => exact testAdvances_of_busy rfl rfl rfl htesting hverdict same
  | decompose g hg hi hmr' hp => exact testAdvances_of_busy (q := .decomposed) hp rfl rfl rfl hverdict (by decide)
  | beginRound g k hg hi hmr' hp =>
    rcases hp with ⟨hp, -⟩ | ⟨hp, -⟩
    · exact testAdvances_of_busy (q := .roundInProgress) hp rfl rfl rfl hverdict (by decide)
    · exact testAdvances_of_busy (q := .roundInProgress) hp rfl rfl rfl hverdict (by decide)
  | complete g u hg hi hu => exact testAdvances_of_complete htesting (hu.phase_of_mrtest hmr)

/-- Settles O48, by the cases of a command's step. -/
theorem phaseNeverGoesBackwards : Obligations.PhaseNeverGoesBackwards := by
  intro s t rest inv htesting hagenda hstep
  obtain ⟨f, hf, hmr⟩ := inv.testing.mp htesting
  have verdict : s.status.verdict = .none := inv.verdict.trans (Phase.verdict_of_testing htesting)
  rw [(stepRunsTheDecodedCommand.2.1 s f rest hagenda hf)] at hstep
  exact (exec_commandStep hstep).testAdvances (s := { s with agenda := rest }) hf hmr htesting verdict

end Sys2Proof.Machine
end

section
/-! SUPPORT. The whole run of MRTEST, and the one function of rule R219 that it follows (rules R196, R214, R217, R219). -/

namespace Sys2Proof.Machine

variable {s : State} {f : Flight} {ra : RegIdx} {k : Nat} {ws rest : List Limb}

/-! ## The end of a test, and a round in progress -/

/-- `s` after a test has ended with its verdict, and what is then left of the source (rules R87, R212). -/
def State.testEnded (s : State) (prime : Bool) (source : List Limb) (ridx : Nat) : State :=
  { s with
    status := { s.status with
      done := true
      verdict := if prime then .probablyPrime else .composite
      phase := if prime then .probablyPrime else .composite }
    source := source
    ridx := ridx
    flight := none }

theorem State.completePrime_eq (s : State) : s.completePrime = s.testEnded true s.source s.ridx := rfl

/-- An MRTEST with `k` rounds passed and the words `ws` drawn for the next (rules R203, R204). -/
def Flight.inRound (f : Flight) (k : Nat) (ws : List Limb) : Flight := { f with draws := ws, passed := k }

/-- `s` after the words `ws` were drawn for a round, with `rest` left in the source (rules R203, R204). -/
def State.inRound (s : State) (f : Flight) (k : Nat) (ws rest : List Limb) : State :=
  { s.setPhase .roundInProgress with
    source := rest, ridx := s.ridx + ws.length, flight := some (f.inRound k ws) }

theorem Flight.Decomposed.inRound (h : f.Decomposed) (k : Nat) (ws : List Limb) : (f.inRound k ws).Decomposed :=
  ⟨h.odd, h.atLeast3, h.pred, h.oddPart, h.product⟩

theorem State.mrRoundControl_eq_inRound (h : k ≠ f.rs.toNat) : s.mrRoundControl f k = s.inRound f k [] s.source :=
  State.mrRoundControl_of_more k h

/-- A round: eight pulls and the decision (rules R204 to R211). -/
theorem finishRun_round (hi : f.instr = .mrtest ra) (hdec : f.Decomposed) (hk : k ≠ f.rs.toNat) (hlength : ws.length = 8)
    (hsource : s.source = ws ++ rest) (n : Nat) :
    finishRun (n + 9) (s.mrRoundControl f k) = finishRun n
      (if witnessPasses f.opA.toNat f.d.toNat f.sh (limbsValue ws % (f.opA.toNat - 2) + 2)
        then (s.inRound f k ws rest).mrRoundControl (f.inRound k ws) (k + 1)
        else (s.inRound f k ws rest).completeComposite) := by
  have pulls : finishRun (n + 1 + ws.length) (s.inRound f k [] s.source) = finishRun (n + 1) (s.inRound f k ws rest) :=
    finishRun_pulls (s := s.inRound f k [] s.source) (f := f.inRound k []) rfl (.inr ⟨⟨ra, hi⟩, rfl⟩)
      (by rw [hlength]; exact le_rfl) hsource (n + 1)
  rw [hlength] at pulls
  rw [State.mrRoundControl_eq_inRound hk]
  exact pulls.trans (finishRun_inFlight (f := f.inRound k ws) rfl hi
    (exec_mrtest_drawn (f := f.inRound k ws) rfl hi rfl (hdec.inRound k ws) hlength) n)

/-! ## The rounds (rules R201, R219) -/

section
variable {n d sh left pulled : Nat} {source : List Limb}

/-- A round of the function that has a result. -/
theorem testRounds_succ_eq_some {result : Bool × Nat}
    (h : testRounds n d sh (left + 1) source pulled = some result) :
    8 ≤ source.length ∧
      (if witnessPasses n d sh (limbsValue (source.take 8) % (n - 2) + 2)
        then testRounds n d sh left (source.drop 8) (pulled + 8) else some (false, pulled + 8)) = some result := by
  rw [testRounds] at h
  split at h
  · cases h
  · next hlength => exact ⟨Nat.le_of_not_lt hlength, h⟩

/-- Where every witness passes, every round pulls its eight words. -/
theorem testRounds_of_all_pass (pass : ∀ r, witnessPasses n d sh (r % (n - 2) + 2) = true)
    (hlength : 8 * left ≤ source.length) :
    testRounds n d sh left source pulled = some (true, pulled + 8 * left) := by
  induction left generalizing source pulled with
  | zero => rfl
  | succ left ih =>
    rw [testRounds, if_neg (by omega), if_pos (pass _), ih (by rw [List.length_drop]; omega), Nat.mul_succ,
      Nat.add_assoc, Nat.add_comm 8]

end

/-- From round control on, the machine gives what the rounds of the function give; `words` and `first` are the source and
the words pulled at the start of the run. -/
theorem finishRun_rounds {prime : Bool} {total : Nat} (words : List Limb) (first : Nat) {left pulled : Nat}
    (hi : f.instr = .mrtest ra) (hdec : f.Decomposed) (hleft : k + left = f.rs.toNat)
    (hsource : s.source = words.drop pulled) (hridx : s.ridx = first + pulled)
    (h : testRounds f.opA.toNat f.d.toNat f.sh left s.source pulled = some (prime, total)) :
    ∃ m, finishRun m (s.mrRoundControl f k) = .next (s.testEnded prime (words.drop total) (first + total)) := by
  induction left generalizing s f k pulled with
  | zero =>
    obtain ⟨rfl, rfl⟩ : true = prime ∧ pulled = total := by simpa [testRounds] using h
    refine ⟨0, ?_⟩
    rw [State.mrRoundControl_of_all k hleft, State.completePrime_eq, hsource, hridx]
    rfl
  | succ left ih =>
    obtain ⟨hlength, hround⟩ := testRounds_succ_eq_some h
    have drawn : (s.source.take 8).length = 8 := List.length_take_of_le hlength
    have round := finishRun_round hi hdec (by omega : k ≠ f.rs.toNat) drawn (List.take_append_drop 8 s.source).symm
    have source' : s.source.drop 8 = words.drop (pulled + 8) := by rw [hsource, List.drop_drop]
    have ridx' : s.ridx + (s.source.take 8).length = first + (pulled + 8) := by rw [drawn, hridx, Nat.add_assoc]
    split at hround
    · next pass =>
      obtain ⟨m, run⟩ := ih (s := s.inRound f k (s.source.take 8) (s.source.drop 8))
        (f := f.inRound k (s.source.take 8)) (k := k + 1) hi (hdec.inRound _ _) (Eq.trans (by omega) hleft) source' ridx'
        hround
      exact ⟨m + 9, (round m).trans ((congrArg _ (if_pos pass)).trans run)⟩
    · next fail =>
      cases hround
      refine ⟨0 + 9, (round 0).trans ((congrArg _ (if_neg fail)).trans ?_)⟩
      rw [← source', ← ridx']
      rfl

/-! ## The function of rule R219 -/

/-- The number of halvings is the exponent of 2. -/
theorem trailingZeros_eq {d sh fuel : Nat} (odd : d % 2 = 1) (hle : sh ≤ fuel) : trailingZeros fuel (d * 2 ^ sh) = sh := by
  induction sh generalizing fuel with
  | zero =>
    cases fuel with
    | zero => rfl
    | succ fuel => rw [trailingZeros, if_pos (by rwa [Nat.pow_zero, Nat.mul_one])]
  | succ sh ih =>
    obtain ⟨fuel, rfl⟩ : ∃ n, fuel = n + 1 := ⟨fuel - 1, by omega⟩
    have double : d * 2 ^ (sh + 1) = 2 * (d * 2 ^ sh) := by ring
    rw [trailingZeros, double, if_neg (by omega), Nat.mul_div_cancel_left _ Nat.two_pos, ih (by omega)]

theorem millerRabin_of_rejected {n : Nat} (h : n % 2 = 0 ∨ n = 1) (rounds : Nat) (source : List Limb) :
    millerRabin n rounds source = some (false, 0) := if_pos h

/-- The function's decomposition is the one of the machine's temporaries. -/
theorem millerRabin_of_decomposed (h : f.Decomposed) (rounds : Nat) (source : List Limb) :
    millerRabin f.opA.toNat rounds source = testRounds f.opA.toNat f.d.toNat f.sh rounds source 0 := by
  have odd := h.odd
  have atLeast3 := h.atLeast3
  have zeros : trailingZeros 512 (f.opA.toNat - 1) = f.sh := h.product ▸ trailingZeros_eq h.oddPart h.sh_lt.le
  have oddPart : (f.opA.toNat - 1) / 2 ^ f.sh = f.d.toNat := by
    rw [← h.product, Nat.mul_div_cancel _ (Nat.two_pow_pos _)]
  rw [millerRabin, if_neg (by omega)]
  simp only [zeros, oddPart]

/-- A prime candidate passes every round (rule R214 (b)). -/
theorem millerRabin_of_prime (h : f.Decomposed) (hp : f.opA.toNat.Prime) {rounds : Nat} {source : List Limb}
    (hlength : 8 * rounds ≤ source.length) :
    millerRabin f.opA.toNat rounds source = some (true, 8 * rounds) := by
  have atLeast3 := h.atLeast3
  have pass (r : Nat) : witnessPasses f.opA.toNat f.d.toNat f.sh (r % (f.opA.toNat - 2) + 2) = true := by
    have bound : r % (f.opA.toNat - 2) < f.opA.toNat - 2 := Nat.mod_lt _ (by omega)
    exact witnessPasses_of_prime hp h.product (Nat.succ_pos _) (by omega)
  rw [millerRabin_of_decomposed h, testRounds_of_all_pass pass hlength, Nat.zero_add]

/-! ## The run (rules R196, R197, R212) -/

/-- A test at Start gives what the function gives of the candidate, the round count and the source. -/
theorem finishRun_mrtest {prime : Bool} {total : Nat} (hf : s.flight = some f) (hi : f.instr = .mrtest ra)
    (hp : s.status.phase = .start) (h : millerRabin f.opA.toNat f.rs.toNat s.source = some (prime, total)) :
    ∃ m, finishRun (m + 1) s = .next (s.testEnded prime (s.source.drop total) (s.ridx + total)) := by
  have start := finishRun_inFlight hf hi (exec_mrtest_start hf hi hp)
  by_cases hrejected : f.opA.toNat % 2 = 0 ∨ f.opA.toNat = 1
  · rw [millerRabin_of_rejected hrejected] at h
    cases h
    refine ⟨0, ?_⟩
    rw [start, State.mrStart_of_rejected hrejected]
    rfl
  · have hdec := decomposedCandidate_decomposed_of_not_rejected hrejected
    obtain ⟨opA, instr, rs, passed⟩ := f.decomposedCandidate_kept
    generalize hg : f.decomposedCandidate = g at hdec opA instr rs passed
    rw [← opA, ← rs, millerRabin_of_decomposed hdec] at h
    obtain ⟨m, run⟩ := finishRun_rounds (s := { s.setPhase .decomposed with flight := some g }) s.source s.ridx
      (instr.trans hi) hdec (congrArg (· + g.rs.toNat) passed |>.trans (Nat.zero_add _)) rfl rfl h
    have decomposed := finishRun_inFlight (s := { s.setPhase .decomposed with flight := some g }) rfl (instr.trans hi)
      (exec_mrtest_decomposed rfl (instr.trans hi) rfl) m
    refine ⟨m + 1, ?_⟩
    rw [start, State.mrStart_of_not_rejected hrejected, hg, decomposed, run]
    rfl

/-- The accept step and the end of the test are all that the statement of a run says. -/
theorem acceptMrtest_testEnded (ra : RegIdx) (prime : Bool) (source : List Limb) (ridx : Nat) (hq : s.quiescent) :
    (s.acceptMrtest ra).testEnded prime source ridx = { s.afterCommand (.mrtest ra) with
      status := { s.status with
        done := true, ill := false
        verdict := if prime then .probablyPrime else .composite
        phase := if prime then .probablyPrime else .composite }
      source := source
      ridx := ridx } := by
  have hflight : s.flight = none := hq
  simp only [State.testEnded, State.afterCommand, hflight]
  rfl

/-- The command run of MRTEST: the accept step, then the test. -/
theorem commandRun_mrtest {prime : Bool} {total : Nat} (hq : s.quiescent)
    (h : millerRabin (s.view ra).toNat s.rounds.toNat s.source = some (prime, total)) :
    ∃ k, commandRun (.mrtest ra) (k + 2) s =
      .next ((s.acceptMrtest ra).testEnded prime (s.source.drop total) (s.ridx + total)) := by
  obtain ⟨m, run⟩ := finishRun_mrtest (s.acceptMrtest_flight ra) rfl rfl h
  exact ⟨m, (commandRun_quiescent (.mrtest ra) hq (m + 1)).trans run⟩

/-- Settles O45: the run of MRTEST, by induction on the rounds. -/
theorem mrtestFollowsItsFunction : Obligations.MrtestFollowsItsFunction := by
  intro ra s prime pulled hq h
  obtain ⟨k, run⟩ := commandRun_mrtest hq h
  exact ⟨k + 2, run.trans (congrArg _ (acceptMrtest_testEnded ra prime _ _ hq))⟩

/-- Settles O46: of a prime the function says ProbablyPrime, and the run follows it. -/
theorem mrtestPassesEveryPrime : Obligations.MrtestPassesEveryPrime := by
  intro ra s hq hp atLeast3 hlength
  have accepted : ¬ ((s.view ra).toNat % 2 = 0 ∨ (s.view ra).toNat = 1) := by
    have odd := hp.eq_two_or_odd
    omega
  have hdec := decomposedCandidate_decomposed_of_not_rejected
    (f := Flight.latched (.mrtest ra) (s.view ra) 0 0 s.rounds (s.initialised ra)) accepted
  have function := millerRabin_of_prime hdec (by rwa [Flight.decomposedCandidate_opA]) hlength
  rw [Flight.decomposedCandidate_opA] at function
  obtain ⟨k, run⟩ := commandRun_mrtest hq function
  exact ⟨k, _, run, rfl, rfl, rfl, rfl⟩

end Sys2Proof.Machine
end

section
/-! SUPPORT. There are no exceptions: every operation that can be a step answers a next state (rules R96, R230); and an idle
engine's turn changes nothing (rule R242). -/

namespace Sys2Proof.Machine

/-! ## Every operation answers a next state -/

/-- A command is accepted, takes its turn, or leaves the state of another command in flight alone (rules R108, R111). -/
theorem exec_answersNext (i : Instr) (s : State) : ∃ t, exec i s = .next t := by
  cases hf : s.flight with
  | none => exact ⟨_, exec_quiescent i hf⟩
  | some f =>
    by_cases hi : f.instr = i
    · exact ⟨_, exec_inFlight hf hi⟩
    · exact ⟨s, (exec_eq_command_flightTurn i s).trans (command_other i s _ _ f hf hi)⟩

theorem offerCommand_answersNext (v : BitVec 32) (s : State) : ∃ t, offerCommand v s = .next t := by
  cases hf : s.flight with
  | some f => exact ⟨s, offerCommand_dropped v s (busy_of_inFlight hf)⟩
  | none =>
    cases hd : decode v with
    | ok i => rw [offerCommand_accepted v s i hf hd]; exact exec_answersNext i s
    | error e => exact ⟨_, offerCommand_rejected v s e hf hd⟩

theorem csrWrite_answersNext (i : Fin 16) (v : BitVec 32) (s : State) : ∃ t, csrWrite i v s = .next t := by
  by_cases h0 : i = 0
  · subst h0; exact offerCommand_answersNext v s
  · by_cases h2 : i = 2
    · subst h2; exact ⟨_, (csrWrite_rounds v s).trans (apply_ite Host.Outcome.next _ _ _).symm⟩
    · exact ⟨s, csrWrite_noEffect v h0 h2⟩

/-- Every host transaction has a defined effect, at BUSY = 0 and at BUSY = 1 (rule R96). -/
theorem hostTransaction_answersNext (op : HostOp) (s : State) : ∃ t, hostTransaction op s = .next t := by
  cases op with
  | memRead addr => exact ⟨_, (apply_ite Host.Outcome.next _ _ _).symm⟩
  | memWrite addr b => exact ⟨_, (apply_ite Host.Outcome.next _ _ _).symm⟩
  | csrRead i => exact ⟨s.readCsr i, rfl⟩
  | csrWrite i v => exact csrWrite_answersNext i v s

theorem engineTurn_answersNext (s : State) : ∃ t, engineTurn s = .next t := by
  cases hf : s.flight with
  | none => exact ⟨s, engineTurn_idle s hf⟩
  | some f => rw [engineTurn_inFlight s f hf]; exact exec_answersNext f.instr s

theorem event_answersNext (e : Event) (s : State) : ∃ t, event e s = .next t := by
  cases e with
  | host op => exact hostTransaction_answersNext op s
  | wait gaps => exact ⟨s.waitPoll gaps, rfl⟩
  | deliver w => exact ⟨s.deliver w, rfl⟩
  | reset => exact ⟨s.hardReset, rfl⟩
  | engine => exact engineTurn_answersNext s

theorem step_answersNext (s : State) : ∃ t, step s = .next t := by
  cases ha : s.agenda with
  | nil => rw [step_empty s ha]; exact engineTurn_answersNext s
  | cons e rest => rw [step_event s e rest ha]; exact event_answersNext e _

/-- Settles O6, by the cases of the agenda and of its first event. -/
theorem everyStepAnswersNext : Obligations.EveryStepAnswersNext := ⟨step_answersNext, exec_answersNext⟩

/-! ## The turn of an idle engine -/

/-- Settles O7: with no command in flight the engine's turn changes nothing. -/
theorem idleEngineKeepsItsState : Obligations.IdleEngineKeepsItsState := fun s hq =>
  ⟨fun ha => (step_empty s ha).trans (engineTurn_idle s hq), fun _ ha => step_engine_idle hq ha⟩

end Sys2Proof.Machine
end

section
/-! SUPPORT. Reset, with or without a command in flight (rules R251, R252). -/

namespace Sys2Proof.Machine

theorem hardReset_statusWord (s : State) : s.hardReset.statusWord = 0 := reset_statusWord

/-- After reset a register reads as a free value at every use (rules R35, R55). -/
theorem hardReset_view (s : State) (n : Nat) (k : RegIdx) :
    { s.hardReset with freeIdx := n }.view k = Config.freeRegister n k := by
  refine State.view_of_unwritten _ k ?_
  simp only [State.hardReset_regs, Fin.getElem_fin, Vector.getElem_replicate]

/-- Settles O9: the event is the reset of the state less its agenda entry, whatever is in flight. -/
theorem resetAbandonsTheCommand : Obligations.ResetAbandonsTheCommand := by
  intro s rest ha
  have reset : step s = .next { s with agenda := rest }.hardReset := step_event s .reset rest ha
  exact ⟨_, reset, rfl, hardReset_statusWord _, rfl, rfl, hardReset_view _, rfl, rfl, rfl, rfl⟩

end Sys2Proof.Machine
end

section
/-! SUPPORT. Termination: every command run ends, given a modulus that is not 0 and the words to draw (rules R266, R267). -/

namespace Sys2Proof.Machine

variable {i : Instr} {s t : State}

/-! ## The end of a command run -/

/-- How a command run leaves the engine: BUSY 0, DONE 1, ILL 0, CMD the word of the command (rules R108, R109). -/
def RunEnded (i : Instr) (t : State) : Prop :=
  t.quiescent ∧ t.status.done = true ∧ t.status.ill = false ∧ t.cmd = encode i

/-- The command run of `i` at `s` ends, after its accept step and at least one more (rules R266, R267). -/
def RunCompletes (i : Instr) (s : State) : Prop := ∃ k t, commandRun i (k + 2) s = .next t ∧ RunEnded i t

/-- A command other than MRTEST whose first turn completes it. -/
theorem runCompletes_of_turn (hq : s.quiescent) (hmr : isMrtest i = false)
    (turn : flightTurn (s.accept (acceptedFlight s i)) (acceptedFlight s i) i = t) (ended : RunEnded i t) :
    RunCompletes i s := by
  have accepted : acceptStep s i = s.accept (acceptedFlight s i) := by
    rw [acceptStep_eq, hmr]
    rfl
  refine ⟨0, t, ?_, ended⟩
  rw [commandRun_quiescent i hq, accepted, ← turn]
  exact finishRun_inFlight rfl rfl (exec_inFlight rfl rfl) 0

/-- RANDC with its eight words delivered (rule R160). -/
theorem runCompletes_randc (rd : RegIdx) (hq : s.quiescent) (hlength : 8 ≤ s.source.length) :
    RunCompletes (.randc rd) s :=
  ⟨8, _, randcBuildsACandidate rd s _ _ hq (List.length_take_of_le hlength) (List.take_append_drop 8 s.source).symm,
    hq, rfl, rfl, rfl⟩

/-! ## MRTEST -/

/-- With eight words for every round to go the rounds have a result (rules R204, R219). -/
theorem testRounds_hasResult {n d sh left pulled : Nat} {source : List Limb} (hlength : 8 * left ≤ source.length) :
    ∃ prime total, testRounds n d sh left source pulled = some (prime, total) := by
  induction left generalizing source pulled with
  | zero => exact ⟨true, pulled, rfl⟩
  | succ left ih =>
    rw [testRounds, if_neg (by omega)]
    split
    · exact ih (by rw [List.length_drop]; omega)
    · exact ⟨false, pulled + 8, rfl⟩

theorem millerRabin_hasResult {n rounds : Nat} {source : List Limb} (hlength : 8 * rounds ≤ source.length) :
    ∃ prime total, millerRabin n rounds source = some (prime, total) := by
  rw [millerRabin]
  split
  · exact ⟨false, 0, rfl⟩
  · exact testRounds_hasResult hlength

/-- MRTEST follows its function, which has a result (rules R212, R219). -/
theorem runCompletes_mrtest (ra : RegIdx) (hq : s.quiescent) (hlength : 8 * s.rounds.toNat ≤ s.source.length) :
    RunCompletes (.mrtest ra) s := by
  obtain ⟨prime, total, function⟩ := millerRabin_hasResult (n := (s.view ra).toNat) hlength
  obtain ⟨k, run⟩ := commandRun_mrtest hq function
  exact ⟨k, _, run, rfl, rfl, rfl, rfl⟩

/-! ## All commands -/

/-- Settles O49, command by command: the primitives complete at their first turn, MULMOD and POWMOD too where the turn has a
value, RANDC and MRTEST when they have pulled their words. -/
theorem everyCommandCompletes : Obligations.EveryCommandCompletes := by
  intro i s hq eightWords wordsPerRound modulus
  show RunCompletes i s
  cases i with
  | zero | copy | cmp | iseven | sub | shr1 => exact runCompletes_of_turn hq rfl rfl ⟨rfl, rfl, rfl, rfl⟩
  | randc rd => exact runCompletes_randc rd hq (eightWords ⟨rd, rfl⟩)
  | mulmod rd ra rb rm =>
    obtain ⟨r, value, -⟩ := mulmod_value (a := s.view ra) (b := s.view rb) (modulus rd ra rb rm (.inl rfl))
    exact runCompletes_of_turn hq rfl (completeWith_accept value _ rd _ hq) ⟨hq, rfl, rfl, rfl⟩
  | powmod rd ra rb rm =>
    obtain ⟨r, value, -⟩ := powmod_value (modulus rd ra rb rm (.inr rfl)) (s.view ra) (s.view rb)
    exact runCompletes_of_turn hq rfl (completeWith_accept value _ rd _ hq) ⟨hq, rfl, rfl, rfl⟩
  | mrtest ra => exact runCompletes_mrtest ra hq (wordsPerRound rfl)

end Sys2Proof.Machine
end
